-- ==== Sys2Proof/Word.lean ====
section
/-! DEFINITION. The words of the machine: the field widths of 30_encoding.md R70 and R71 and the register widths of 10_state.md. -/

namespace Sys2Proof

/-- An 8-bit unsigned value: a V register, a timer, a memory byte, the immediate kk (R7, R22). -/
abbrev Byte := BitVec 8

/-- A 16-bit unsigned value: an opcode, the PC, the register I, a stack entry (R24, R25, R26, R70). -/
abbrev Word := BitVec 16

/-- A 4-bit field: the register selectors x and y, the count n, a key number (R71). -/
abbrev Nibble := BitVec 4

/-- The 12-bit address field nnn (R71). -/
abbrev Addr := BitVec 12

end Sys2Proof
end

