-- ==== Sys2Proof/Syntax.lean ====
section
/-! DEFINITION. The instructions: one constructor per row of opcode_table.json (00_scope.md R2), the operands at the widths of 30_encoding.md R71. -/

namespace Sys2Proof

/-- The 34 instructions of the step contract, in the table's order. -/
inductive Instr where
  /-- CLS, 00E0 (R100). -/
  | cls
  /-- RET, 00EE (R120). -/
  | ret
  /-- JP addr, 1nnn (R121). -/
  | jp (nnn : Addr)
  /-- CALL addr, 2nnn (R122). -/
  | call (nnn : Addr)
  /-- SE Vx, byte, 3xkk (R123). -/
  | seImm (x : Nibble) (kk : Byte)
  /-- SNE Vx, byte, 4xkk (R124). -/
  | sneImm (x : Nibble) (kk : Byte)
  /-- SE Vx, Vy, 5xy0 (R125). -/
  | seReg (x y : Nibble)
  /-- LD Vx, byte, 6xkk (R150). -/
  | ldImm (x : Nibble) (kk : Byte)
  /-- ADD Vx, byte, 7xkk (R151). -/
  | addImm (x : Nibble) (kk : Byte)
  /-- LD Vx, Vy, 8xy0 (R152). -/
  | ldReg (x y : Nibble)
  /-- OR Vx, Vy, 8xy1 (R153). -/
  | orReg (x y : Nibble)
  /-- AND Vx, Vy, 8xy2 (R154). -/
  | andReg (x y : Nibble)
  /-- XOR Vx, Vy, 8xy3 (R155). -/
  | xorReg (x y : Nibble)
  /-- ADD Vx, Vy, 8xy4 (R156). -/
  | addReg (x y : Nibble)
  /-- SUB Vx, Vy, 8xy5 (R157). -/
  | sub (x y : Nibble)
  /-- SHR Vx, 8xy6 (R158): y is encoded and not read. -/
  | shr (x y : Nibble)
  /-- SUBN Vx, Vy, 8xy7 (R159). -/
  | subn (x y : Nibble)
  /-- SHL Vx, 8xyE (R160): y is encoded and not read. -/
  | shl (x y : Nibble)
  /-- SNE Vx, Vy, 9xy0 (R126). -/
  | sneReg (x y : Nibble)
  /-- LD I, addr, Annn (R180). -/
  | ldI (nnn : Addr)
  /-- JP V0, addr, Bnnn (R127). -/
  | jpV0 (nnn : Addr)
  /-- RND Vx, byte, Cxkk (R161). -/
  | rnd (x : Nibble) (kk : Byte)
  /-- DRW Vx, Vy, nibble, Dxyn (R101). -/
  | drw (x y n : Nibble)
  /-- SKP Vx, Ex9E (R200). -/
  | skp (x : Nibble)
  /-- SKNP Vx, ExA1 (R201). -/
  | sknp (x : Nibble)
  /-- LD Vx, DT, Fx07 (R202). -/
  | ldVxDT (x : Nibble)
  /-- LD Vx, K, Fx0A (R203). -/
  | ldVxK (x : Nibble)
  /-- LD DT, Vx, Fx15 (R204). -/
  | ldDTVx (x : Nibble)
  /-- LD ST, Vx, Fx18 (R205). -/
  | ldSTVx (x : Nibble)
  /-- ADD I, Vx, Fx1E (R181). -/
  | addI (x : Nibble)
  /-- LD F, Vx, Fx29 (R182). -/
  | ldF (x : Nibble)
  /-- LD B, Vx, Fx33 (R183). -/
  | ldB (x : Nibble)
  /-- LD [I], Vx, Fx55 (R184). -/
  | ldMemStore (x : Nibble)
  /-- LD Vx, [I], Fx65 (R185). -/
  | ldMemLoad (x : Nibble)
  deriving DecidableEq, Repr

end Sys2Proof
end

