-- ==== Sys2Proof/Decode.lean ====
section
/-! DEFINITION. Decoding (30_encoding.md R70 to R82): total on any bytes, rejecting by name; and the encoder, from the same patterns. -/

namespace Sys2Proof

/-- op = opcode[15:12] (R70). -/
def opField (w : Word) : Nibble := w.extractLsb' 12 4

/-- x = opcode[11:8] (R71). -/
def xField (w : Word) : Nibble := w.extractLsb' 8 4

/-- y = opcode[7:4] (R71). -/
def yField (w : Word) : Nibble := w.extractLsb' 4 4

/-- n = opcode[3:0] (R71). -/
def nField (w : Word) : Nibble := w.extractLsb' 0 4

/-- kk = opcode[7:0] (R71). -/
def kkField (w : Word) : Byte := w.extractLsb' 0 8

/-- nnn = opcode[11:0] (R71). -/
def nnnField (w : Word) : Addr := w.extractLsb' 0 12

/-- Family 0x0: 00E0 and 00EE exactly; every other word is unsupported (R75, D11). -/
def decodeSystem (nnn : Addr) : Option Instr :=
  match nnn with
  | 0x0E0#12 => some .cls
  | 0x0EE#12 => some .ret
  | _ => none

/-- Families 0x5 and 0x9: the low nibble must be 0 (R76, D11). -/
def decodeZeroNibble (n : Nibble) (i : Instr) : Option Instr :=
  match n with
  | 0x0#4 => some i
  | _ => none

/-- Family 0x8: the low nibble selects the operation (R77). -/
def decodeAlu (x y n : Nibble) : Option Instr :=
  match n with
  | 0x0#4 => some (.ldReg x y)
  | 0x1#4 => some (.orReg x y)
  | 0x2#4 => some (.andReg x y)
  | 0x3#4 => some (.xorReg x y)
  | 0x4#4 => some (.addReg x y)
  | 0x5#4 => some (.sub x y)
  | 0x6#4 => some (.shr x y)
  | 0x7#4 => some (.subn x y)
  | 0xE#4 => some (.shl x y)
  | _ => none

/-- Family 0xE: the low byte selects (R78). -/
def decodeKeySkip (x : Nibble) (kk : Byte) : Option Instr :=
  match kk with
  | 0x9E#8 => some (.skp x)
  | 0xA1#8 => some (.sknp x)
  | _ => none

/-- Family 0xF: the low byte selects (R79). -/
def decodeMisc (x : Nibble) (kk : Byte) : Option Instr :=
  match kk with
  | 0x07#8 => some (.ldVxDT x)
  | 0x0A#8 => some (.ldVxK x)
  | 0x15#8 => some (.ldDTVx x)
  | 0x18#8 => some (.ldSTVx x)
  | 0x1E#8 => some (.addI x)
  | 0x29#8 => some (.ldF x)
  | 0x33#8 => some (.ldB x)
  | 0x55#8 => some (.ldMemStore x)
  | 0x65#8 => some (.ldMemLoad x)
  | _ => none

/-- Decode(opcode): the high nibble selects the family (R74); `none` is UnsupportedOpcode (R80). -/
def decodeWord (w : Word) : Option Instr :=
  match opField w with
  | 0x0#4 => decodeSystem (nnnField w)
  | 0x1#4 => some (.jp (nnnField w))
  | 0x2#4 => some (.call (nnnField w))
  | 0x3#4 => some (.seImm (xField w) (kkField w))
  | 0x4#4 => some (.sneImm (xField w) (kkField w))
  | 0x5#4 => decodeZeroNibble (nField w) (.seReg (xField w) (yField w))
  | 0x6#4 => some (.ldImm (xField w) (kkField w))
  | 0x7#4 => some (.addImm (xField w) (kkField w))
  | 0x8#4 => decodeAlu (xField w) (yField w) (nField w)
  | 0x9#4 => decodeZeroNibble (nField w) (.sneReg (xField w) (yField w))
  | 0xA#4 => some (.ldI (nnnField w))
  | 0xB#4 => some (.jpV0 (nnnField w))
  | 0xC#4 => some (.rnd (xField w) (kkField w))
  | 0xD#4 => some (.drw (xField w) (yField w) (nField w))
  | 0xE#4 => decodeKeySkip (xField w) (kkField w)
  | 0xF#4 => decodeMisc (xField w) (kkField w)
  | _ => none

/-- Why bytes are not an instruction: fewer than two bytes are there (R70, R82), or the word is an unsupported opcode (R80). -/
inductive DecodeError where
  | truncated
  | unsupported (opcode : Word)
  deriving DecidableEq, Repr

/-- The instruction at the front of a list of bytes and the bytes after it: one big-endian word (R54, R70). -/
def decodeBytes : List Byte → Except DecodeError (Instr × List Byte)
  | hi :: lo :: rest =>
    match decodeWord (hi ++ lo) with
    | some i => .ok (i, rest)
    | none => .error (.unsupported (hi ++ lo))
  | _ => .error .truncated

/-- op and nnn as one opcode (R70). -/
def wordNnn (op : Nibble) (nnn : Addr) : Word := op ++ nnn

/-- op, x and kk as one opcode (R70). -/
def wordXkk (op x : Nibble) (kk : Byte) : Word := op ++ x ++ kk

/-- op, x, y and n as one opcode (R70). -/
def wordXyn (op x y n : Nibble) : Word := op ++ x ++ y ++ n

/-- The opcode of an instruction (R70, R83 and the patterns of opcode_table.json). -/
def encode : Instr → Word
  | .cls => 0x00E0#16
  | .ret => 0x00EE#16
  | .jp nnn => wordNnn 0x1 nnn
  | .call nnn => wordNnn 0x2 nnn
  | .seImm x kk => wordXkk 0x3 x kk
  | .sneImm x kk => wordXkk 0x4 x kk
  | .seReg x y => wordXyn 0x5 x y 0x0
  | .ldImm x kk => wordXkk 0x6 x kk
  | .addImm x kk => wordXkk 0x7 x kk
  | .ldReg x y => wordXyn 0x8 x y 0x0
  | .orReg x y => wordXyn 0x8 x y 0x1
  | .andReg x y => wordXyn 0x8 x y 0x2
  | .xorReg x y => wordXyn 0x8 x y 0x3
  | .addReg x y => wordXyn 0x8 x y 0x4
  | .sub x y => wordXyn 0x8 x y 0x5
  | .shr x y => wordXyn 0x8 x y 0x6
  | .subn x y => wordXyn 0x8 x y 0x7
  | .shl x y => wordXyn 0x8 x y 0xE
  | .sneReg x y => wordXyn 0x9 x y 0x0
  | .ldI nnn => wordNnn 0xA nnn
  | .jpV0 nnn => wordNnn 0xB nnn
  | .rnd x kk => wordXkk 0xC x kk
  | .drw x y n => wordXyn 0xD x y n
  | .skp x => wordXkk 0xE x 0x9E
  | .sknp x => wordXkk 0xE x 0xA1
  | .ldVxDT x => wordXkk 0xF x 0x07
  | .ldVxK x => wordXkk 0xF x 0x0A
  | .ldDTVx x => wordXkk 0xF x 0x15
  | .ldSTVx x => wordXkk 0xF x 0x18
  | .addI x => wordXkk 0xF x 0x1E
  | .ldF x => wordXkk 0xF x 0x29
  | .ldB x => wordXkk 0xF x 0x33
  | .ldMemStore x => wordXkk 0xF x 0x55
  | .ldMemLoad x => wordXkk 0xF x 0x65

/-- The bytes of an instruction as memory holds them: high byte first (R54). -/
def encodeBytes (i : Instr) : List Byte := [(encode i).extractLsb' 8 8, (encode i).extractLsb' 0 8]

/-- The two bytes memory holds for the opcode-table word of `nbits` bits `w`: bits at and above `nbits` are 0 (every row here has 16),
the high byte first (R54). -/
def tableBytes (nbits w : Nat) : List Byte :=
  [BitVec.ofNat 8 (w % 2 ^ nbits / 256), BitVec.ofNat 8 (w % 2 ^ nbits)]

/-- The instruction the decoder reads from the opcode-table word `w` of `nbits` bits, laid out as the hardware stores it. -/
def decodeTableWord (nbits w : Nat) : Option Instr :=
  match decodeBytes (tableBytes nbits w) with
  | .ok (i, _) => some i
  | .error _ => none

end Sys2Proof
end

