-- ==== Sys2Proof/Config.lean ====
section
/-! DEFINITION. The parameters the source leaves open (00_scope.md R6), as plain data with the spec's defaults, and the two free values. -/

namespace Sys2Proof

/-- Which of flag and result VF keeps when an instruction's destination Vx is VF (R6, 42_alu.md R149, D10). -/
inductive VfOrder where
  | flagLast
  | resultLast
  deriving DecidableEq, Repr

/-- What a fetch at an odd pc does (R6, 20_memory.md R55, D12). -/
inductive OddPcPolicy where
  | execute
  | fault
  deriving DecidableEq, Repr

/-- What Fx29 does with Vx above 0xF (R6, 43_index_memory.md R182, D14). -/
inductive FontIndexPolicy where
  | linear
  | lowNibble
  | fault
  deriving DecidableEq, Repr

/-- What Ex9E and ExA1 do with Vx above 0xF (R6, 44_keys_timers.md R199, D15). -/
inductive KeyIndexPolicy where
  | fault
  | lowNibble
  deriving DecidableEq, Repr

/-- Which of several pressed keys Fx0A takes (R6, 44_keys_timers.md R203, D16): the lowest-numbered one, or the one an arbitrary
function of the pressed set names (`Config.keyChoice`). -/
inductive KeySelect where
  | lowest
  | chosen
  deriving DecidableEq, Repr

/-- FontTable: 80 bytes, glyph d at index 5 d, one byte per row, top row first (R6, 20_memory.md R63). -/
abbrev FontTable := Vector Byte 80

/-- The open parameters of R6. They never change while the machine runs; State carries them as data so that a statement about every
state is a statement about every choice of them (DESIGN CHOICE, entry 1). -/
structure Config where
  fontTable : FontTable
  vfOrder : VfOrder
  oddPc : OddPcPolicy
  fontIndex : FontIndexPolicy
  keyIndex : KeyIndexPolicy
  keySelect : KeySelect
  loadStoreIncrementsI : Bool
  deriving DecidableEq, Repr

/-- The rows of glyphs 0 to 7 of the standard hex-digit set (R64). PRESUMED: general knowledge by the spec's own mark (D8, entry 3). -/
def glyphs0to7 : List (List Byte) :=
  [[0xF0, 0x90, 0x90, 0x90, 0xF0], [0x20, 0x60, 0x20, 0x20, 0x70], [0xF0, 0x10, 0xF0, 0x80, 0xF0], [0xF0, 0x10, 0xF0, 0x10, 0xF0],
   [0x90, 0x90, 0xF0, 0x10, 0x10], [0xF0, 0x80, 0xF0, 0x10, 0xF0], [0xF0, 0x80, 0xF0, 0x90, 0xF0], [0xF0, 0x10, 0x20, 0x40, 0x40]]

/-- The rows of glyphs 8 to F (R64). PRESUMED: as `glyphs0to7`. -/
def glyphs8toF : List (List Byte) :=
  [[0xF0, 0x90, 0xF0, 0x90, 0xF0], [0xF0, 0x90, 0xF0, 0x10, 0xF0], [0xF0, 0x90, 0xF0, 0x90, 0x90], [0xE0, 0x90, 0xE0, 0x90, 0xE0],
   [0xF0, 0x80, 0x80, 0x80, 0xF0], [0xE0, 0x90, 0x90, 0x90, 0xE0], [0xF0, 0x80, 0xF0, 0x80, 0xF0], [0xF0, 0x80, 0xF0, 0x80, 0x80]]

/-- The default FontTable of R64 (D8, entry 3). -/
def standardFont : FontTable := ⟨(glyphs0to7 ++ glyphs8toF).flatten.toArray, rfl⟩

/-- The spec's default for every parameter (R6; entry 2). -/
def Config.default : Config where
  fontTable := standardFont
  vfOrder := .flagLast
  oddPc := .execute
  fontIndex := .linear
  keyIndex := .fault
  keySelect := .lowest
  loadStoreIncrementsI := false

/-- RandomByte (R6, R161, D25): the byte of the n-th executed Cxkk. A FREE VALUE (entry 6): it has no body, so nothing can be proved of it. -/
opaque Config.randomByte : Nat → Byte

/-- The key an arbitrary KeySelect names for a set of pressed keys (R6, R203, D16). A FREE VALUE (entry 7). -/
opaque Config.keyChoice : Vector Bool 16 → Nibble

end Sys2Proof
end

