-- ==== Sys2Proof/Machine/State.lean ====
section
/-! DEFINITION. The state of the machine (10_state.md R20 to R35), the errors it knows (60_exceptions.md R220) and reset (70_reset_and_hazards.md R270). -/

namespace Sys2Proof.Machine

/-- The errors of 60_exceptions.md R220. A step that raises one is a NEXT state with the error in the fault latch (R223), so no meaning of
this model answers `Host.Outcome.fault`; the type is also what the fault latch and the host operations hold. -/
inductive Fault where
  /-- Raised by a fetch past 0xFFF (or at an odd pc under OddPcPolicy = fault), by DRW, LD_B, LD_mem_store, LD_mem_load when their last byte
  lies past 0xFFF, by LD_F under FontIndexPolicy = fault (R220). Safe: the spec's own error. -/
  | outOfBounds
  /-- Raised by CALL with SP = 16 (R122). Safe: the spec's own error. -/
  | stackOverflow
  /-- Raised by RET with SP = 0 (R120). Safe: the spec's own error. -/
  | stackUnderflow
  /-- Raised by the decode of a word no rule matches (R80). Safe: the spec's own error; D11 errs toward unprovable. -/
  | unsupportedOpcode
  /-- Returned by load() for more than 3584 bytes (R236); never in the fault latch. Safe: the spec's own error. -/
  | programTooLarge
  /-- Returned by setKey() for a key above 15 (R234), raised by SKP and SKNP with Vx above 0xF under KeyIndexPolicy = fault (R199).
  Safe: the spec's own error. -/
  | invalidKey
  deriving DecidableEq, Repr

/-- Why an instruction has no meaning. -/
inductive Refusal where
  /-- Answered by an arm of exec that has no meaning yet, with the mnemonic of opcode_table.json; no arm of this model answers it.
  Safe: the machine stops. -/
  | notModelled (mnemonic : String)
  deriving DecidableEq, Repr

/-- What the fault latch records: the error, the pc of the step and the fetched opcode, none when the fetch itself failed (R32, R223, R224). -/
structure Latch where
  error : Fault
  pc : Word
  opcode : Option Word
  deriving DecidableEq, Repr

/-- Memory: the (address, byte) pairs that differ from the reset contents, addresses rising (20_memory.md R50). -/
abbrev Memory := List Host.Cell

/-- Everything the spec gives the machine (10_state.md R21 and the table of section 9), and the model's own `cfg` and `draws`. -/
structure State where
  /-- V0 to VF (R22). -/
  v : Vector Byte 16
  /-- I, 16 bits of which 15:12 are 0 (R24). -/
  i : Word
  /-- PC (R25). -/
  pc : Word
  /-- Stack[0..15] (R26). -/
  stack : Vector Word 16
  /-- SP, 0 to 16, the next free slot (R26). -/
  sp : Fin 17
  /-- DT, the delay timer (R27). -/
  dt : Byte
  /-- ST, the sound timer (R27). -/
  st : Byte
  /-- FB: bit y * 64 + x is the pixel at column x, row y, the flat index of R28; 1 is on. -/
  fb : BitVec 2048
  /-- Key[0..15], true when pressed (R29). -/
  keys : Vector Bool 16
  /-- The redraw flag (R30). -/
  redraw : Bool
  /-- keyWait: the destination of the waiting Fx0A (R31). -/
  keyWait : Option Nibble
  /-- The fault latch (R32). -/
  latch : Option Latch
  /-- M[0x000..0xFFF] (R50). -/
  mem : Memory
  /-- The open parameters of 00_scope.md R6; the MODEL'S own field (DESIGN CHOICE, entry 1). -/
  cfg : Config
  /-- How many random bytes have been drawn; the MODEL'S own field, which the free value `Config.randomByte` is applied to (entry 6). -/
  draws : Nat
  deriving DecidableEq, Repr

/-- What a meaning and a step answer. -/
abbrev Outcome := Host.Outcome State Fault Refusal

/-- The machine right after reset() with the spec's default parameters (R270): pc = 0x200 by the source, memory with nothing listed (the font
table and zeros, `Memory.resetByte`), every other value the spec's decision D1 to D6 and D18 (DESIGN CHOICE, entry 4). -/
def State.reset : State where
  v := Vector.replicate 16 0
  i := 0
  pc := 0x200
  stack := Vector.replicate 16 0
  sp := 0
  dt := 0
  st := 0
  fb := 0
  keys := Vector.replicate 16 false
  redraw := false
  keyWait := none
  latch := none
  mem := []
  cfg := Config.default
  draws := 0

end Sys2Proof.Machine
end

