-- ==== Sys2Proof/Machine/Memory.lean ====
section
/-! DEFINITION. Memory as 4096 bytes (20_memory.md R50 to R57, R63, R64): what an unlisted address reads as, one-byte access, and the canonical form. -/

namespace Sys2Proof.Machine

/-- MEM_SIZE: addresses 0x000 to 0xFFF exist (R50; 00_scope.md R5). -/
def memSize : Nat := 4096

/-- FONT_BASE (R63; 00_scope.md R5). -/
def fontBase : Nat := 0x050

/-- What an address not listed reads as: the reset contents of R50, the standard font table at 0x050 to 0x09F and 0 elsewhere
(entries 3 and 5). -/
def Memory.resetByte (a : Nat) : Byte :=
  if h : fontBase ≤ a ∧ a - fontBase < 80 then standardFont[a - fontBase]'h.2 else 0

/-- M[a] (R50). -/
def Memory.read : Memory → Nat → Byte
  | [], a => Memory.resetByte a
  | c :: rest, a => if c.1 = a then c.2 else Memory.read rest a

/-- Memory with no entry for `a`. -/
def Memory.erase (m : Memory) (a : Nat) : Memory := m.filter (fun c => c.1 != a)

/-- Memory with the entry (a, b) placed in address order. -/
def Memory.place : Memory → Nat → Byte → Memory
  | [], a, b => [(a, b)]
  | c :: rest, a, b => if a < c.1 then (a, b) :: c :: rest else c :: Memory.place rest a b

/-- M[a] <- b, in canonical form: writing the value the address reads as when unlisted removes its entry. -/
def Memory.write (m : Memory) (a : Nat) (b : Byte) : Memory :=
  if b = Memory.resetByte a then m.erase a else (m.erase a).place a b

/-- M[a], M[a+1], ..., M[a+n-1], in ascending order (R51, R56). -/
def Memory.readBytes (m : Memory) : Nat → Nat → List Byte
  | _, 0 => []
  | a, n + 1 => m.read a :: Memory.readBytes m (a + 1) n

/-- M[a] <- b[0], M[a+1] <- b[1], ..., in ascending order (R51, R56). -/
def Memory.writeBytes : Memory → Nat → List Byte → Memory
  | m, _, [] => m
  | m, a, b :: bs => Memory.writeBytes (m.write a b) (a + 1) bs

/-- The canonical form: addresses strictly rising, each one existing (R50), and no entry equal to what an unlisted address reads as. -/
abbrev Memory.wf (m : Memory) : Prop :=
  m.Pairwise (fun c d => c.1 < d.1) ∧ ∀ c ∈ m, c.1 < memSize ∧ c.2 ≠ Memory.resetByte c.1

end Sys2Proof.Machine
end

