-- ==== Sys2Proof/Machine/Ops.lean ====
section
/-! DEFINITION. The named operations over the state: registers, the index register, the stack, memory with its range check, the framebuffer,
the ends of an instruction (00_scope.md R8, 30_encoding.md R73), and raising an error, the one exception entry of this machine
(60_exceptions.md R222 to R224). -/

namespace Sys2Proof.Machine

/-- V[r] (10_state.md R22). -/
def State.getV (s : State) (r : Nibble) : Byte := s.v[r.toNat]'r.isLt

/-- V[r] <- b (R22). -/
def State.setV (s : State) (r : Nibble) (b : Byte) : State := { s with v := s.v.set r.toNat b r.isLt }

/-- V[0], V[1], ..., V[n-1] (43_index_memory.md R184). -/
def State.firstV (s : State) (n : Nat) : List Byte := s.v.toList.take n

/-- `V[j] <- b[j]` for each j below the length of `bs` (R185). -/
def State.loadV (s : State) (bs : List Byte) : State :=
  { s with v := Vector.ofFn fun j : Fin 16 => bs.getD j.val s.v[j.val] }

/-- I <- n, stored as n[11:0] (10_state.md R24). -/
def State.setI (s : State) (n : Nat) : State := { s with i := BitVec.ofNat 16 (n % 4096) }

/-- Key[k] (10_state.md R29). -/
def State.key (s : State) (k : Nibble) : Bool := s.keys[k.toNat]'k.isLt

/-- FB[y][x], the flat index being y * 64 + x (10_state.md R28). -/
def State.pixel (s : State) (x y : Nat) : Bool := s.fb.getLsbD (y * 64 + x)

/-- MemRead(addr, n): `none` is OutOfBounds, when the last byte lies past 0xFFF (20_memory.md R51). -/
def State.memRead (s : State) (addr n : Nat) : Option (List Byte) :=
  if addr + n ≤ memSize then some (s.mem.readBytes addr n) else none

/-- MemWrite(addr, n, bytes): `none` is OutOfBounds, when the last byte lies past 0xFFF, and then nothing is written (R51). -/
def State.memWrite (s : State) (addr : Nat) (bytes : List Byte) : Option State :=
  if addr + bytes.length ≤ memSize then some { s with mem := s.mem.writeBytes addr bytes } else none

/-- Push(w): `none` is StackOverflow, when SP = 16 (10_state.md R26). -/
def State.push (s : State) (w : Word) : Option State :=
  if h : s.sp.val < 16 then
    some { s with stack := s.stack.set s.sp.val w h, sp := ⟨s.sp.val + 1, Nat.succ_lt_succ h⟩ }
  else none

/-- Pop(): `none` is StackUnderflow, when SP = 0; the slot keeps its value (R26). -/
def State.pop (s : State) : Option (Word × State) :=
  if h : 0 < s.sp.val then
    some (s.stack[s.sp.val - 1]'(Nat.lt_of_lt_of_le (Nat.sub_lt h Nat.one_pos) (Nat.le_of_lt_succ s.sp.isLt)),
      { s with sp := ⟨s.sp.val - 1, Nat.lt_of_le_of_lt (Nat.sub_le _ _) s.sp.isLt⟩ })
  else none

/-- The end of a completed instruction: the next pc (30_encoding.md R73), and keyWait is none since the outcome is Ok (R72; entry 10). -/
def State.goto (s : State) (target : Word) : State := { s with pc := target, keyWait := none }

/-- The default advance: pc + 2 (R73). -/
def State.advance (s : State) : State := s.goto (s.pc + 2)

/-- A skip: pc + 4 when the condition holds, pc + 2 otherwise (R73). -/
def State.skipIf (s : State) (cond : Bool) : State := s.goto (if cond then s.pc + 4 else s.pc + 2)

/-- The end of a step whose outcome is Waiting: keyWait holds the destination and pc stays (R72, 44_keys_timers.md R203). -/
def State.waitKey (s : State) (x : Nibble) : State := { s with keyWait := some x }

/-- raise E: the fault latch records the error, the pc of the step and the fetched opcode, and nothing else is written
(60_exceptions.md R222, R223, R224). There is no return from it in the machine; only the host's reset() clears the latch (R228). -/
def State.raise (s : State) (e : Fault) (opcode : Option Word) : State := { s with latch := some ⟨e, s.pc, opcode⟩ }

/-- The outcome of an instruction that raises E: its own opcode is recorded (R224; entry 11). -/
def State.raiseFrom (s : State) (e : Fault) (i : Instr) : Outcome := .next (s.raise e (some (encode i)))

/-- Where an instruction's own check gives `none` it raises E (60_exceptions.md R225); otherwise it goes on with what the check gave. -/
def State.orRaise {α : Type} (s : State) (e : Fault) (i : Instr) (checked : Option α) (go : α → State) : Outcome :=
  match checked with
  | some a => .next (go a)
  | none => s.raiseFrom e i

end Sys2Proof.Machine
end

