-- ==== Sys2Proof/Machine/Flags.lean ====
section
/-! DEFINITION. The flag computations: what 8xy4 to 8xyE and Dxyn write to VF (10_state.md R23, 42_alu.md R149, R156 to R160). -/

namespace Sys2Proof.Machine

/-- The number of VF, register 15 (R23). -/
def regF : Nibble := 0xF

/-- A 1-bit flag as the byte 0x00 or 0x01 (R149). -/
def flagByte (f : Bool) : Byte := if f then 1 else 0

/-- WriteResultAndFlag(x, r, f): the order decides which of the two VF holds when x = F (R149, D10). -/
def State.writeResultAndFlag (s : State) (x : Nibble) (r : Byte) (f : Bool) : State :=
  match s.cfg.vfOrder with
  | .flagLast => (s.setV x r).setV regF (flagByte f)
  | .resultLast => (s.setV regF (flagByte f)).setV x r

/-- The 9-bit sum zext_9(a) + zext_9(b), 0 to 510 (R156). -/
def sum9 (a b : Byte) : BitVec 9 := a.setWidth 9 + b.setWidth 9

/-- The carry out of a + b: bit 8 of the 9-bit sum (R156). -/
def carryOut (a b : Byte) : Bool := (sum9 a b).getLsbD 8

/-- No borrow out of a - b: a is at least b, unsigned (R157, R159). -/
def noBorrow (a b : Byte) : Bool := decide (b.toNat ≤ a.toNat)

/-- The bit a right shift moves out: bit 0 (R158). -/
def shiftedOutRight (a : Byte) : Bool := a.getLsbD 0

/-- The bit a left shift moves out: bit 7 (R160). -/
def shiftedOutLeft (a : Byte) : Bool := a.getLsbD 7

end Sys2Proof.Machine
end

