-- ==== Sys2Proof/Machine/Alu.lean ====
section
/-! DEFINITION. The meanings of the register load and ALU instructions (42_alu.md). Every input is read into a local name before any write
(10_state.md R35). -/

namespace Sys2Proof.Machine

/-- LD Vx, byte (R150). -/
def execLdImm (x : Nibble) (kk : Byte) (s : State) : Outcome := .next (s.setV x kk).advance

/-- ADD Vx, byte (R151): modulo 256, VF not written. -/
def execAddImm (x : Nibble) (kk : Byte) (s : State) : Outcome := .next (s.setV x (s.getV x + kk)).advance

/-- LD Vx, Vy (R152). -/
def execLdReg (x y : Nibble) (s : State) : Outcome := .next (s.setV x (s.getV y)).advance

/-- OR Vx, Vy (R153): VF not written (D30). -/
def execOrReg (x y : Nibble) (s : State) : Outcome := .next (s.setV x (s.getV x ||| s.getV y)).advance

/-- AND Vx, Vy (R154): VF not written (D30). -/
def execAndReg (x y : Nibble) (s : State) : Outcome := .next (s.setV x (s.getV x &&& s.getV y)).advance

/-- XOR Vx, Vy (R155): VF not written (D30). -/
def execXorReg (x y : Nibble) (s : State) : Outcome := .next (s.setV x (s.getV x ^^^ s.getV y)).advance

/-- ADD Vx, Vy (R156): the low byte of the 9-bit sum, and its carry in VF. -/
def execAddReg (x y : Nibble) (s : State) : Outcome :=
  let a := s.getV x
  let b := s.getV y
  .next (s.writeResultAndFlag x ((sum9 a b).setWidth 8) (carryOut a b)).advance

/-- SUB Vx, Vy (R157): Vx - Vy modulo 256, and no-borrow in VF. -/
def execSub (x y : Nibble) (s : State) : Outcome :=
  let a := s.getV x
  let b := s.getV y
  .next (s.writeResultAndFlag x (a - b) (noBorrow a b)).advance

/-- SHR Vx (R158): Vx shifted right by one, zero in bit 7, the old bit 0 in VF; Vy is not read. -/
def execShr (x _y : Nibble) (s : State) : Outcome :=
  let a := s.getV x
  .next (s.writeResultAndFlag x (a >>> 1) (shiftedOutRight a)).advance

/-- SUBN Vx, Vy (R159): Vy - Vx modulo 256, and no-borrow in VF. -/
def execSubn (x y : Nibble) (s : State) : Outcome :=
  let a := s.getV x
  let b := s.getV y
  .next (s.writeResultAndFlag x (b - a) (noBorrow b a)).advance

/-- SHL Vx (R160): Vx shifted left by one, zero in bit 0, the old bit 7 in VF; Vy is not read. -/
def execShl (x _y : Nibble) (s : State) : Outcome :=
  let a := s.getV x
  .next (s.writeResultAndFlag x (a <<< 1) (shiftedOutLeft a)).advance

/-- RND Vx, byte (R161): one fresh free byte (entry 6) masked with kk. -/
def execRnd (x : Nibble) (kk : Byte) (s : State) : Outcome :=
  .next ({ s with draws := s.draws + 1 }.setV x (Config.randomByte s.draws &&& kk)).advance

end Sys2Proof.Machine
end

