-- ==== Sys2Proof/Machine/Control.lean ====
section
/-! DEFINITION. The meanings of the control transfer and skip instructions (41_control_flow.md). -/

namespace Sys2Proof.Machine

/-- RET (R120): pc is the popped return address; StackUnderflow when SP = 0. -/
def execRet (s : State) : Outcome := s.orRaise .stackUnderflow .ret s.pop fun p => p.2.goto p.1

/-- JP addr (R121). -/
def execJp (nnn : Addr) (s : State) : Outcome := .next (s.goto (nnn.setWidth 16))

/-- CALL addr (R122): pushes pc + 2 (D9; entry 13); StackOverflow when SP = 16. -/
def execCall (nnn : Addr) (s : State) : Outcome :=
  s.orRaise .stackOverflow (.call nnn) (s.push (s.pc + 2)) fun t => t.goto (nnn.setWidth 16)

/-- SE Vx, byte (R123). -/
def execSeImm (x : Nibble) (kk : Byte) (s : State) : Outcome := .next (s.skipIf (s.getV x == kk))

/-- SNE Vx, byte (R124). -/
def execSneImm (x : Nibble) (kk : Byte) (s : State) : Outcome := .next (s.skipIf (s.getV x != kk))

/-- SE Vx, Vy (R125). -/
def execSeReg (x y : Nibble) (s : State) : Outcome := .next (s.skipIf (s.getV x == s.getV y))

/-- SNE Vx, Vy (R126). -/
def execSneReg (x y : Nibble) (s : State) : Outcome := .next (s.skipIf (s.getV x != s.getV y))

/-- JP V0, addr (R127): no wrap to 12 bits (D13). -/
def execJpV0 (nnn : Addr) (s : State) : Outcome := .next (s.goto (nnn.setWidth 16 + (s.getV 0).setWidth 16))

end Sys2Proof.Machine
end

