-- ==== Sys2Proof/Machine/Operands.lean ====
section
/-! DEFINITION. The operand forms: a key number (44_keys_timers.md R199), the key Fx0A takes (R203), a font address (43_index_memory.md R182),
decimal digits (R183), and a sprite composed onto the framebuffer (40_display.md R101, R102). -/

namespace Sys2Proof.Machine

/-- KeyIndex(k): `none` is InvalidKey (R199, D15). -/
def keyIndexOf (p : KeyIndexPolicy) (k : Byte) : Option Nibble :=
  match p with
  | .fault => if 0xF < k.toNat then none else some (k.setWidth 4)
  | .lowNibble => some (k.setWidth 4)

/-- The keys 0x0 to 0xF in rising order (R5). -/
def allKeys : List Nibble := [0x0, 0x1, 0x2, 0x3, 0x4, 0x5, 0x6, 0x7, 0x8, 0x9, 0xA, 0xB, 0xC, 0xD, 0xE, 0xF]

/-- The lowest-numbered pressed key, none when no key is pressed (R203). -/
def State.lowestKey (s : State) : Option Nibble := allKeys.find? (fun k => s.key k)

/-- KeySelect(P) for the set P of pressed keys, none when P is empty (R203, D16). Under `chosen` the key is the one a free function names,
if that is pressed: every KeySelect of R6 is such a function (entry 7). -/
def State.selectKey (s : State) : Option Nibble :=
  match s.cfg.keySelect with
  | .lowest => s.lowestKey
  | .chosen =>
    match s.lowestKey with
    | none => none
    | some k => if s.key (Config.keyChoice s.keys) then some (Config.keyChoice s.keys) else some k

/-- The address Fx29 gives I for digit `d`: `none` is OutOfBounds (R182, D14). -/
def fontAddress (p : FontIndexPolicy) (d : Byte) : Option Nat :=
  match p with
  | .linear => some (fontBase + 5 * d.toNat)
  | .lowNibble => some (fontBase + 5 * (d.toNat % 16))
  | .fault => if 0xF < d.toNat then none else some (fontBase + 5 * d.toNat)

/-- The hundreds, tens and units digits of `b` (R183). -/
def decimalDigits (b : Byte) : List Byte :=
  [BitVec.ofNat 8 (b.toNat / 100), BitVec.ofNat 8 (b.toNat / 10 % 10), BitVec.ofNat 8 (b.toNat % 10)]

/-- The framebuffer while a sprite is composed, and whether a lit pixel has been turned off so far. -/
abbrev Canvas := BitVec 2048 × Bool

/-- One set sprite cell lands on the pixel of flat index `p`: collide if it is lit, then XOR it (R101). -/
def Canvas.flip (c : Canvas) (p : Nat) : Canvas := (c.1 ^^^ BitVec.twoPow 2048 p, c.2 || c.1.getLsbD p)

/-- The flat index of the pixel that column `c`, row `r` of a sprite at (cx, cy) lands on (R102). -/
def cellIndex (cx cy c r : Nat) : Nat := ((cy + r) % 32) * 64 + (cx + c) % 64

/-- Column `c` of a row byte is its bit 7 - c (R102, D24; entry 15). -/
def spriteBit (row : Byte) (c : Nat) : Bool := row.getLsbD (7 - c)

/-- Row `r` of a sprite, the columns of the list in its order (R101). -/
def drawRow (cx cy r : Nat) (row : Byte) : List Nat → Canvas → Canvas
  | [], cv => cv
  | c :: cols, cv => drawRow cx cy r row cols (if spriteBit row c then Canvas.flip cv (cellIndex cx cy c r) else cv)

/-- The rows of a sprite from row number `r` on, each over the columns 0 to 7 (R101). -/
def drawRows (cx cy : Nat) : List Byte → Nat → Canvas → Canvas
  | [], _, cv => cv
  | row :: rows, r, cv => drawRows cx cy rows (r + 1) (drawRow cx cy r row [0, 1, 2, 3, 4, 5, 6, 7] cv)

/-- The framebuffer after a sprite is drawn at (cx, cy), and its collision (R101). -/
def drawSprite (fb : BitVec 2048) (cx cy : Nat) (rows : List Byte) : Canvas := drawRows cx cy rows 0 (fb, false)

/-- The rows of the sprite Dxyn draws: none at all for n = 0, which reads no memory; `none` is OutOfBounds (R101, D23). -/
def State.spriteRows (s : State) (n : Nibble) : Option (List Byte) :=
  if n = 0 then some [] else s.memRead s.i.toNat n.toNat

end Sys2Proof.Machine
end

