-- ==== Sys2Proof/Machine/Display.lean ====
section
/-! DEFINITION. The meanings of the display instructions (40_display.md). -/

namespace Sys2Proof.Machine

/-- CLS (R100): every pixel 0, the redraw flag set whatever the framebuffer held (D23). -/
def execCls (s : State) : Outcome := .next { s with fb := 0, redraw := true }.advance

/-- DRW Vx, Vy, n (R101): OutOfBounds when n > 0 and I + n - 1 > 0xFFF; else the sprite is composed at (Vx mod 64, Vy mod 32), VF is its
collision and the redraw flag is set (D23). -/
def execDrw (x y n : Nibble) (s : State) : Outcome :=
  let cx := (s.getV x).toNat % 64
  let cy := (s.getV y).toNat % 32
  s.orRaise .outOfBounds (.drw x y n) (s.spriteRows n) fun rows =>
    let drawn := drawSprite s.fb cx cy rows
    ({ s with fb := drawn.1, redraw := true }.setV regF (flagByte drawn.2)).advance

end Sys2Proof.Machine
end

