-- ==== Sys2Proof/Machine/IndexMemory.lean ====
section
/-! DEFINITION. The meanings of the index register and memory instructions (43_index_memory.md). -/

namespace Sys2Proof.Machine

/-- What Fx55 and Fx65 do to I after `n` bytes: I + n when LoadStoreIncrementsI is true, nothing otherwise (R184, R185, D17). -/
def State.bumpI (s : State) (n : Nat) : State := if s.cfg.loadStoreIncrementsI then s.setI (s.i.toNat + n) else s

/-- LD I, addr (R180). -/
def execLdI (nnn : Addr) (s : State) : Outcome := .next (s.setI nnn.toNat).advance

/-- ADD I, Vx (R181): modulo 4096, VF not written. -/
def execAddI (x : Nibble) (s : State) : Outcome := .next (s.setI (s.i.toNat + (s.getV x).toNat)).advance

/-- LD F, Vx (R182). -/
def execLdF (x : Nibble) (s : State) : Outcome :=
  s.orRaise .outOfBounds (.ldF x) (fontAddress s.cfg.fontIndex (s.getV x)) fun a => (s.setI a).advance

/-- LD B, Vx (R183): OutOfBounds when I + 2 > 0xFFF, and then no byte is written. -/
def execLdB (x : Nibble) (s : State) : Outcome :=
  s.orRaise .outOfBounds (.ldB x) (s.memWrite s.i.toNat (decimalDigits (s.getV x))) fun t => t.advance

/-- LD [I], Vx (R184): stores V0 to Vx at I; OutOfBounds when I + x > 0xFFF, and then no byte is written. -/
def execLdMemStore (x : Nibble) (s : State) : Outcome :=
  s.orRaise .outOfBounds (.ldMemStore x) (s.memWrite s.i.toNat (s.firstV (x.toNat + 1))) fun t => (t.bumpI (x.toNat + 1)).advance

/-- LD Vx, [I] (R185): loads V0 to Vx from I; OutOfBounds when I + x > 0xFFF, and then no register is written. -/
def execLdMemLoad (x : Nibble) (s : State) : Outcome :=
  s.orRaise .outOfBounds (.ldMemLoad x) (s.memRead s.i.toNat (x.toNat + 1)) fun bs => ((s.loadV bs).bumpI (x.toNat + 1)).advance

end Sys2Proof.Machine
end

