-- ==== Sys2Proof/Machine/KeysTimers.lean ====
section
/-! DEFINITION. The meanings of the keypad and timer instructions (44_keys_timers.md). -/

namespace Sys2Proof.Machine

/-- SKP Vx (R200): InvalidKey by R199. -/
def execSkp (x : Nibble) (s : State) : Outcome :=
  s.orRaise .invalidKey (.skp x) (keyIndexOf s.cfg.keyIndex (s.getV x)) fun k => s.skipIf (s.key k)

/-- SKNP Vx (R201): InvalidKey by R199. -/
def execSknp (x : Nibble) (s : State) : Outcome :=
  s.orRaise .invalidKey (.sknp x) (keyIndexOf s.cfg.keyIndex (s.getV x)) fun k => s.skipIf (!s.key k)

/-- LD Vx, DT (R202). -/
def execLdVxDT (x : Nibble) (s : State) : Outcome := .next (s.setV x s.dt).advance

/-- LD Vx, K (R203): with no key pressed the outcome is Waiting, pc stays and keyWait holds x; otherwise Vx is the selected key. -/
def execLdVxK (x : Nibble) (s : State) : Outcome :=
  match s.selectKey with
  | none => .next (s.waitKey x)
  | some k => .next (s.setV x (k.setWidth 8)).advance

/-- LD DT, Vx (R204). -/
def execLdDTVx (x : Nibble) (s : State) : Outcome := .next { s with dt := s.getV x }.advance

/-- LD ST, Vx (R205). -/
def execLdSTVx (x : Nibble) (s : State) : Outcome := .next { s with st := s.getV x }.advance

end Sys2Proof.Machine
end

