-- ==== Sys2Proof/Machine/Fetch.lean ====
section
/-! DEFINITION. The step cycle up to Execute (30_encoding.md R72, 20_memory.md R54, R55, 60_exceptions.md R225), and how an opcode is placed
where the next fetch finds it. -/

namespace Sys2Proof.Machine

/-- The opcode at pc, M[pc] in its high byte; `none` is OutOfBounds, when pc + 1 > 0xFFF (R54). -/
def State.fetchWord (s : State) : Option Word :=
  if s.pc.toNat + 1 ≤ 0xFFF then some (s.mem.read s.pc.toNat ++ s.mem.read (s.pc.toNat + 1)) else none

/-- A fetch at this pc raises OutOfBounds for being odd (R55, D12). -/
def State.oddPcFault (s : State) : Bool := s.cfg.oddPc == .fault && s.pc.getLsbD 0

/-- What the step cycle does before Execute: it ends there in a state, or it executes an instruction. -/
inductive Fetched where
  | stop (t : State)
  | run (i : Instr)
  deriving DecidableEq, Repr

/-- Fetch and decode in the order of R72 and R225: the latch, an odd pc, the range, the decode. With the latch set the step changes nothing
(R223). -/
def State.fetch (s : State) : Fetched :=
  if s.latch.isSome then .stop s
  else if s.oddPcFault then .stop (s.raise .outOfBounds none)
  else
    match s.fetchWord with
    | none => .stop (s.raise .outOfBounds none)
    | some w =>
      match decodeWord w with
      | none => .stop (s.raise .unsupportedOpcode (some w))
      | some i => .run i

/-- `s` made ready to fetch: no latched error, and pc at the program base 0x200 where pc itself cannot be fetched from (entry 17). -/
def State.readyToFetch (s : State) : State :=
  { s with latch := none, pc := if s.fetchWord.isNone || s.oddPcFault then 0x200 else s.pc }

/-- `s` with the opcode-table word `w` of `nbits` bits stored where the next fetch reads it (entry 17). -/
def State.placeTableWord (s : State) (nbits w : Nat) : State :=
  let t := s.readyToFetch
  { t with mem := t.mem.writeBytes t.pc.toNat (tableBytes nbits w) }

end Sys2Proof.Machine
end

