-- ==== Sys2Proof/Machine/Step.lean ====
section
/-! DEFINITION. step() (30_encoding.md R72): fetch and decode, then exec. -/

namespace Sys2Proof.Machine

/-- One call of step() (R72). -/
def step (s : State) : Host.Outcome State Fault Refusal :=
  match s.fetch with
  | .stop t => .next t
  | .run i => exec i s

/-- `s` with the opcode-table word `w` of `nbits` bits stored where `step` fetches its next instruction (entry 17). -/
def State.withFetchWord (s : State) (nbits w : Nat) : State := s.placeTableWord nbits w

end Sys2Proof.Machine
end

