-- ==== Sys2Proof/WellFormed.lean ====
section
/-! DEFINITION. What is checked before it is used. Every field of an instruction has its exact width in its type (30_encoding.md R71:
"every register field names an existing register and needs no range check"), so every term of Instr is well formed and there is no
check on instructions. The operands a host operation takes from outside are checked here. -/

namespace Sys2Proof

/-- PROGRAM_MAX, the largest program load() accepts: 4096 - 0x200 bytes (00_scope.md R5). -/
def programMax : Nat := 3584

/-- load(b) accepts b: "load fails with `ProgramTooLarge` if byte count exceeds 4096−0x200" (60_exceptions.md R236). -/
def programFits (bytes : List Byte) : Bool := decide (bytes.length ≤ programMax)

/-- setKey(k, p) accepts k: "out-of-range key index fails with `InvalidKey`" (60_exceptions.md R234). -/
def keyNumberValid (k : Nat) : Bool := decide (k ≤ 15)

end Sys2Proof
end

