-- ==== Sys2Proof/Machine/HostOps.lean ====
section
/-! DEFINITION. The host interface (60_exceptions.md R230 to R238, 70_reset_and_hazards.md R270): the operations a host calls between steps, each
atomic, in any order (R238, D29). -/

namespace Sys2Proof.Machine

/-- A timer after one tick: decremented, clamped at 0 (R230). -/
def tickDown (b : Byte) : Byte := if b = 0 then 0 else b - 1

/-- tick(): both timers, whatever keyWait and the latch hold (R230, D21). -/
def State.tick (s : State) : State := { s with dt := tickDown s.dt, st := tickDown s.st }

/-- Key[k] <- p (R234). -/
def State.setKeyState (s : State) (k : Nibble) (p : Bool) : State := { s with keys := s.keys.set k.toNat p k.isLt }

/-- PROGRAM_BASE (00_scope.md R5). -/
def programBase : Nat := 0x200

/-- The copy of load(): the program's bytes from 0x200 on, and nothing else (R236, D26). -/
def State.copyProgram (s : State) (bytes : List Byte) : State := { s with mem := s.mem.writeBytes programBase bytes }

/-- consumeRedraw() (R235). -/
def State.consumeRedraw (s : State) : State := { s with redraw := false }

/-- reset() (R270): every element at its reset value and the font table of this instance in memory. The parameters stay, and the draws
already made stay made, so that no random byte comes twice (entry 18). -/
def State.hostReset (s : State) : State :=
  { State.reset with mem := Memory.writeBytes [] fontBase s.cfg.fontTable.toList, cfg := s.cfg, draws := s.draws }

/-- The operations of R233. -/
inductive HostOp where
  | step
  | tick
  | setKey (key : Nat) (pressed : Bool)
  | consumeRedraw
  | load (bytes : List Byte)
  | readFramebuffer
  | readRedraw
  | reset
  deriving DecidableEq, Repr

/-- What an operation returns: Ok, Waiting or Error(E) (00_scope.md R9, R221), the pixels by flat index, or the redraw flag (R237). -/
inductive CallResult where
  | ok
  | waiting
  | error (e : Fault)
  | pixels (fb : BitVec 2048)
  | flag (b : Bool)
  deriving DecidableEq, Repr

/-- The number of an error (R220; the numbering is the spec's decision D19, entry 23). -/
def errorCode : Fault → Nat
  | .outOfBounds => 1
  | .stackOverflow => 2
  | .stackUnderflow => 3
  | .unsupportedOpcode => 4
  | .programTooLarge => 5
  | .invalidKey => 6

/-- The outcome of a step, read from the state it leaves: a latched error, else Waiting, else Ok (R72, R221; entry 8). -/
def stepReturn (t : State) : CallResult :=
  match t.latch with
  | some l => .error l.error
  | none => if t.keyWait.isSome then .waiting else .ok

/-- setKey(k, p): an invalid key is returned as an error and changes nothing, the latch included (R234, D20). -/
def State.setKey (s : State) (k : Nat) (p : Bool) : CallResult × State :=
  if keyNumberValid k then (.ok, s.setKeyState (BitVec.ofNat 4 k) p) else (.error .invalidKey, s)

/-- load(b): a program that is too large is returned as an error and changes nothing, the latch included (R236, D20). -/
def State.load (s : State) (bytes : List Byte) : CallResult × State :=
  if programFits bytes then (.ok, s.copyProgram bytes) else (.error .programTooLarge, s)

/-- One host operation: what it returns and the state it leaves (R233). -/
def hostCall (op : HostOp) (s : State) : Host.Outcome (CallResult × State) Fault Refusal :=
  match op with
  | .step =>
    match Sys2Proof.Machine.step s with
    | .next t => .next (stepReturn t, t)
    | .fault f => .fault f
    | .refused r => .refused r
  | .tick => .next (.ok, s.tick)
  | .setKey k p => .next (s.setKey k p)
  | .consumeRedraw => .next (.ok, s.consumeRedraw)
  | .load bytes => .next (s.load bytes)
  | .readFramebuffer => .next (.pixels s.fb, s)
  | .readRedraw => .next (.flag s.redraw, s)
  | .reset => .next (.ok, s.hostReset)

/-- The host operations of a list, one after the other, in the order the host chose (R238, R246). -/
def hostRun : List HostOp → State → Host.Outcome State Fault Refusal
  | [], s => .next s
  | op :: ops, s =>
    match hostCall op s with
    | .next (_, t) => hostRun ops t
    | .fault f => .fault f
    | .refused r => .refused r

end Sys2Proof.Machine
end

