-- ==== Sys2Proof/Safety.lean ====
section
/-! DEFINITION. The terms claims are stated in: the invariant of the machine, what an instruction leaves unchanged, and a list of instructions run in a row. -/

namespace Sys2Proof.Machine

/-- What holds of every state a run from reset reaches: memory in canonical form; bits 15:12 of I zero (10_state.md R24); pc at most 0x10FE (R25);
every stack entry at most 0x1000 (41_control_flow.md R122); a latched error is one a step raises, its pc is the pc, and only a fetch error has no
opcode (60_exceptions.md R221 to R224). -/
abbrev State.Inv (s : State) : Prop :=
  s.mem.wf ∧ s.i.toNat ≤ 0xFFF ∧ s.pc.toNat ≤ 0x10FE ∧ (∀ j : Fin 16, s.stack[j.val].toNat ≤ 0x1000) ∧
    ∀ l ∈ s.latch, l.error ≠ .programTooLarge ∧ l.pc = s.pc ∧ (l.opcode = none → l.error = .outOfBounds)

/-- While an Fx0A waits and no error is latched, the fetch at pc finds that Fx0A (10_state.md R31). -/
def State.WaitsAtItsFx0A (s : State) : Prop :=
  ∀ x, s.keyWait = some x → s.latch = none → ∃ w, s.fetchWord = some w ∧ decodeWord w = some (.ldVxK x)

/-- The state elements beside V and memory. `stack` is the sixteen entries and `sp` the stack pointer. -/
inductive Field where
  | i | pc | stack | sp | dt | st | fb | keys | redraw | keyWait | latch | cfg | draws
  deriving DecidableEq, Repr

/-- Only the registers of `regs`, the `len` bytes from `base` on and the elements of `fields` may differ between `s` and `t`. -/
def Frame (regs : List Nibble) (base len : Nat) (fields : List Field) (s t : State) : Prop :=
  (∀ r, r ∉ regs → t.getV r = s.getV r) ∧
  (∀ a, ¬ (base ≤ a ∧ a < base + len) → t.mem.read a = s.mem.read a) ∧
  (Field.i ∉ fields → t.i = s.i) ∧ (Field.pc ∉ fields → t.pc = s.pc) ∧
  (Field.stack ∉ fields → t.stack = s.stack) ∧ (Field.sp ∉ fields → t.sp = s.sp) ∧
  (Field.dt ∉ fields → t.dt = s.dt) ∧ (Field.st ∉ fields → t.st = s.st) ∧
  (Field.fb ∉ fields → t.fb = s.fb) ∧ (Field.keys ∉ fields → t.keys = s.keys) ∧
  (Field.redraw ∉ fields → t.redraw = s.redraw) ∧ (Field.keyWait ∉ fields → t.keyWait = s.keyWait) ∧
  (Field.latch ∉ fields → t.latch = s.latch) ∧ (Field.cfg ∉ fields → t.cfg = s.cfg) ∧
  (Field.draws ∉ fields → t.draws = s.draws)

/-- Instruction `i` completes in `s`: it answers `t`, whose pc is `target` and whose keyWait is none, and changes nothing beside those but the
registers, bytes and elements named (30_encoding.md R72, R73). -/
def Completes (i : Instr) (s t : State) (target : Word) (regs : List Nibble) (base len : Nat) (fields : List Field) : Prop :=
  exec i s = .next t ∧ t.pc = target ∧ t.keyWait = none ∧ Frame regs base len (.pc :: .keyWait :: fields) s t

/-- Instruction `i` raises `e` in `s`: only the fault latch is written, with the error, the pc and the instruction's opcode
(60_exceptions.md R222 to R224). -/
def Raises (i : Instr) (s : State) (e : Fault) : Prop :=
  exec i s = .next { s with latch := some ⟨e, s.pc, some (encode i)⟩ }

/-- Register x and VF after an instruction with result `r` and flag `f` for destination x: both for x other than F; for x = F the one VfOrder
writes last (42_alu.md R149). -/
def HoldsResultAndFlag (s t : State) (x : Nibble) (r : Byte) (f : Prop) [Decidable f] : Prop :=
  (x ≠ 0xF → t.getV x = r ∧ t.getV 0xF = if f then 1 else 0) ∧
  (x = 0xF → s.cfg.vfOrder = .flagLast → t.getV 0xF = if f then 1 else 0) ∧
  (x = 0xF → s.cfg.vfOrder = .resultLast → t.getV 0xF = r)

/-- Pixel (px, py) is one a set bit of the n-row sprite at I lands on when it is drawn at (Vx mod 64, Vy mod 32): the sprite's column and row there
are the pixel's distances from that corner, modulo 64 and 32 (40_display.md R102). -/
def spriteCovers (s : State) (x y n : Nibble) (px py : Nat) : Bool :=
  let c := (px + 64 - (s.getV x).toNat % 64) % 64
  let r := (py + 32 - (s.getV y).toNat % 32) % 32
  decide (c < 8) && decide (r < n.toNat) && (s.mem.read (s.i.toNat + r)).getLsbD (7 - c)

/-- The registers V0 to Vx. -/
def regsUpTo (x : Nibble) : List Nibble := allKeys.filter fun r => decide (r.toNat ≤ x.toNat)

/-- The instructions of a list executed in a row, none of them raising an error. -/
def execAll : List Instr → State → Option State
  | [], s => some s
  | i :: is, s =>
    match exec i s with
    | .next t => if t.latch.isSome then none else execAll is t
    | _ => none

end Sys2Proof.Machine
end

