-- ==== Sys2Proof/Certificates/Slice0/Obligations.lean ====
section
/-! DEFINITION. The statements for the provers, from the numbered rules of spec/. -/

open Sys2Proof Sys2Proof.Machine

/-! ### Encoding (30_encoding.md) -/

/-- Every instruction, with every operand at every value its field admits, is what its opcode decodes to. Rests on D11 (entry 19) only in that the
literal digits of the table are matched. -/
def Obligations.EveryOpcodeDecodesToItsInstruction : Prop := ∀ i, decodeWord (encode i) = some i

/-- A word that decodes is the opcode of the instruction it decodes to: no word has two readings, and no field bit is dropped. -/
def Obligations.DecodedWordsEncodeBack : Prop := ∀ w i, decodeWord w = some i → encode i = w

/-- The unsupported words are exactly those the families leave unmatched (R75 to R80). The families 0x0, 0x5 and 0x9 rest on the spec's decision D11
(entry 19). -/
def Obligations.UnsupportedWordsAreTheUnmatchedOnes : Prop :=
  ∀ w : Word, decodeWord w = none ↔
    (opField w = 0x0 ∧ w ≠ 0x00E0 ∧ w ≠ 0x00EE) ∨
    (opField w = 0x5 ∧ nField w ≠ 0x0) ∨
    (opField w = 0x9 ∧ nField w ≠ 0x0) ∨
    (opField w = 0x8 ∧ nField w ∈ [0x8, 0x9, 0xA, 0xB, 0xC, 0xD, 0xF]) ∨
    (opField w = 0xE ∧ kkField w ∉ [0x9E, 0xA1]) ∨
    (opField w = 0xF ∧ kkField w ∉ [0x07, 0x0A, 0x15, 0x18, 0x1E, 0x29, 0x33, 0x55, 0x65])

/-- The families 0x8, 0xE and 0xF decode by their low nibble or low byte (R77, R78, R79); that every other word of these families is unsupported, the
`none` at the end of each chain, is the spec's decision D11 (entry 19). -/
def Obligations.LowDigitsSelectInFamilies8EF : Prop :=
  (∀ x y n : Nibble, decodeWord (0x8#4 ++ x ++ y ++ n) =
    if n = 0x0 then some (.ldReg x y) else if n = 0x1 then some (.orReg x y) else if n = 0x2 then some (.andReg x y)
    else if n = 0x3 then some (.xorReg x y) else if n = 0x4 then some (.addReg x y) else if n = 0x5 then some (.sub x y)
    else if n = 0x6 then some (.shr x y) else if n = 0x7 then some (.subn x y) else if n = 0xE then some (.shl x y) else none) ∧
  (∀ (x : Nibble) (kk : Byte), decodeWord (0xE#4 ++ x ++ kk) =
    if kk = 0x9E then some (.skp x) else if kk = 0xA1 then some (.sknp x) else none) ∧
  (∀ (x : Nibble) (kk : Byte), decodeWord (0xF#4 ++ x ++ kk) =
    if kk = 0x07 then some (.ldVxDT x) else if kk = 0x0A then some (.ldVxK x) else if kk = 0x15 then some (.ldDTVx x)
    else if kk = 0x18 then some (.ldSTVx x) else if kk = 0x1E then some (.addI x) else if kk = 0x29 then some (.ldF x)
    else if kk = 0x33 then some (.ldB x) else if kk = 0x55 then some (.ldMemStore x) else if kk = 0x65 then some (.ldMemLoad x)
    else none)

/-- Opcodes written out digit by digit from the spec's patterns decode to the instructions they stand for, at least one in each of the sixteen families
of R74. -/
def Obligations.WrittenOutOpcodesDecode : Prop :=
  decodeWord 0x00E0 = some .cls ∧ decodeWord 0x00EE = some .ret ∧ decodeWord 0x1ABC = some (.jp 0xABC) ∧
  decodeWord 0x2208 = some (.call 0x208) ∧ decodeWord 0x3342 = some (.seImm 0x3 0x42) ∧ decodeWord 0x4341 = some (.sneImm 0x3 0x41) ∧
  decodeWord 0x5120 = some (.seReg 0x1 0x2) ∧ decodeWord 0x6A3C = some (.ldImm 0xA 0x3C) ∧ decodeWord 0x7B01 = some (.addImm 0xB 0x01) ∧
  decodeWord 0x8215 = some (.sub 0x2 0x1) ∧ decodeWord 0x9120 = some (.sneReg 0x1 0x2) ∧ decodeWord 0xA300 = some (.ldI 0x300) ∧
  decodeWord 0xB2F0 = some (.jpV0 0x2F0) ∧ decodeWord 0xC30F = some (.rnd 0x3 0x0F) ∧ decodeWord 0xD125 = some (.drw 0x1 0x2 0x5) ∧
  decodeWord 0xE1A1 = some (.sknp 0x1) ∧ decodeWord 0xF533 = some (.ldB 0x5)

/-! ### The step cycle (30_encoding.md R72, 20_memory.md R54, 60_exceptions.md R222 to R225) -/

/-- With no error latched, an instruction at a pc that can be fetched from is what step() executes: nothing is done around exec. -/
def Obligations.StepRunsTheDecodedInstruction : Prop :=
  ∀ (s : State) (i : Instr), s.latch = none → (s.cfg.oddPc = .execute ∨ s.pc.toNat % 2 = 0) → s.pc.toNat ≤ 0xFFE →
    decodeWord (s.mem.read s.pc.toNat ++ s.mem.read (s.pc.toNat + 1)) = some i → step s = exec i s

/-- The fetch reads M[pc] and M[pc+1], big-endian, and succeeds exactly when pc is at most 0xFFE; past that the step raises OutOfBounds with no opcode
recorded (R54). -/
def Obligations.FetchIsBigEndianAndBounded : Prop :=
  ∀ s : State, (s.fetchWord.isSome ↔ s.pc.toNat ≤ 0xFFE) ∧
    (∀ w, s.fetchWord = some w → w.toNat = (s.mem.read s.pc.toNat).toNat * 256 + (s.mem.read (s.pc.toNat + 1)).toNat) ∧
    (s.latch = none → 0xFFE < s.pc.toNat → step s = .next { s with latch := some ⟨.outOfBounds, s.pc, none⟩ })

/-- The two step errors raised before Execute beside the fetch range: at an odd pc under OddPcPolicy = fault, OutOfBounds with no opcode (R55; the policy is the
spec's parameter D12, entry 2); and for a word no rule matches, UnsupportedOpcode with that word (R80, R223; D11 and D18, entries 8 and 19). Only the latch is
written. -/
def Obligations.OddPcAndUnsupportedOpcodeAreLatched : Prop :=
  (∀ s : State, s.latch = none → s.cfg.oddPc = .fault → s.pc.toNat % 2 = 1 →
    step s = .next { s with latch := some ⟨.outOfBounds, s.pc, none⟩ }) ∧
  (∀ (s : State) (w : Word), s.latch = none → (s.cfg.oddPc = .execute ∨ s.pc.toNat % 2 = 0) → s.fetchWord = some w → decodeWord w = none →
    step s = .next { s with latch := some ⟨.unsupportedOpcode, s.pc, some w⟩ })

/-- While an error is latched a step returns it and changes nothing (R223: the spec's decision D18; entry 9). -/
def Obligations.LatchedStepReturnsTheErrorAndChangesNothing : Prop :=
  ∀ (s : State) (l : Latch), s.latch = some l → hostCall .step s = .next (.error l.error, s)

/-- A step always answers a next state: no instruction is refused and nothing stops the machine outside the fault latch. -/
def Obligations.StepAlwaysAnswersAState : Prop := ∀ s, ∃ t, step s = .next t

/-- A step that raises an error returns that error to the host and writes the fault latch and nothing else, the pc included (R221, R222). The latch is the
spec's decision D18: it holds the pc, and the opcode fetched or, for a fetch error, none (D19; entries 8 and 23), and no later step proceeds from there
(entry 9). -/
def Obligations.ErrorStepWritesOnlyTheLatch : Prop :=
  ∀ s t, s.latch = none → step s = .next t → t.latch ≠ none →
    step t = .next t ∧ ∃ l : Latch, t = { s with latch := some l } ∧ hostCall .step s = .next (.error l.error, t) ∧ l.pc = s.pc ∧
      ((l.opcode = none ∧ l.error = .outOfBounds ∧ (0xFFE < s.pc.toNat ∨ (s.cfg.oddPc = .fault ∧ s.pc.toNat % 2 = 1))) ∨
       (l.opcode ≠ none ∧ l.opcode = s.fetchWord))

/-- What step() returns beside an error (R221). It returns Waiting at an Fx0A with no key pressed and nowhere else, and then keyWait alone is written (R203,
R241; the poll is the spec's decision D16, entry 7); it returns Ok, and the state the instruction leaves, when any other instruction, or an Fx0A with a key
pressed, is executed and raises no error. -/
def Obligations.WaitingMeansFx0AWithNoKey : Prop :=
  (∀ s t, hostCall .step s = .next (.waiting, t) →
    ∃ x w, s.fetchWord = some w ∧ decodeWord w = some (.ldVxK x) ∧ (∀ k, s.key k = false) ∧ t = { s with keyWait := some x }) ∧
  (∀ (s : State) (x : Nibble) (w : Word), s.latch = none → (s.cfg.oddPc = .execute ∨ s.pc.toNat % 2 = 0) → s.fetchWord = some w →
    decodeWord w = some (.ldVxK x) → (∀ k, s.key k = false) → hostCall .step s = .next (.waiting, { s with keyWait := some x })) ∧
  (∀ (s t : State) (i : Instr) (w : Word), s.latch = none → (s.cfg.oddPc = .execute ∨ s.pc.toNat % 2 = 0) → s.fetchWord = some w →
    decodeWord w = some i → exec i s = .next t → t.latch = none → (∀ x, i = .ldVxK x → ∃ k, s.key k = true) →
    hostCall .step s = .next (.ok, t))

/-! ### Display (40_display.md) -/

/-- CLS completes: every pixel 0, the redraw flag set (R100; set even on a clear screen by the spec's decision D23, entry 25). -/
def Obligations.ClearScreenCompletes : Prop :=
  ∀ s, ∃ t, Completes .cls s t (s.pc + 2) [] 0 0 [.fb, .redraw] ∧
    (∀ x y, x < 64 → y < 32 → t.pixel x y = false) ∧ t.redraw = true

/-- DRW completes when n = 0 or the sprite lies in memory: every pixel is XORed with the sprite's bit there, wrapping both ways; VF is 1 exactly when a
lit pixel is covered; the redraw flag is set (R101, R102; the bit order is the spec's decision D24, entry 15, and n = 0 is D23, entry 25). -/
def Obligations.DrawXorsTheSpritePixelByPixel : Prop :=
  ∀ (x y n : Nibble) (s : State), n = 0 ∨ s.i.toNat + n.toNat ≤ 0x1000 →
    ∃ t, Completes (.drw x y n) s t (s.pc + 2) [0xF] 0 0 [.fb, .redraw] ∧ t.redraw = true ∧
      (∀ px py, px < 64 → py < 32 → t.pixel px py = (s.pixel px py ^^ spriteCovers s x y n px py)) ∧
      ((∃ px py, px < 64 ∧ py < 32 ∧ s.pixel px py = true ∧ spriteCovers s x y n px py = true) → t.getV 0xF = 1) ∧
      ((∀ px py, px < 64 → py < 32 → s.pixel px py = true → spriteCovers s x y n px py = false) → t.getV 0xF = 0)

/-- A sprite that runs past 0xFFF is not drawn: DRW raises OutOfBounds and writes nothing but the latch (R101, R222). -/
def Obligations.DrawPastMemoryRaises : Prop :=
  ∀ (x y n : Nibble) (s : State), n ≠ 0 → 0x1000 < s.i.toNat + n.toNat → Raises (.drw x y n) s .outOfBounds

/-- Drawing the same sprite twice at the same place restores every pixel, and the second draw sets VF exactly when the sprite covers a pixel that was off
before the first (R101, R103). R103 says more, that VF is 1 whenever the sprite has a set bit: that is so where the sprite falls on a pixel that is off, and by
R101's own pseudocode not where it covers lit pixels only (entry 24). The place is the same when the first draw leaves Vx and Vy as they were. -/
def Obligations.DrawingTwiceRestoresTheFramebuffer : Prop :=
  ∀ (x y n : Nibble) (s t : State), n = 0 ∨ s.i.toNat + n.toNat ≤ 0x1000 → exec (.drw x y n) s = .next t →
    t.getV x = s.getV x → t.getV y = s.getV y →
    ∃ u, exec (.drw x y n) t = .next u ∧ u.fb = s.fb ∧
      ((∃ px py, px < 64 ∧ py < 32 ∧ s.pixel px py = false ∧ spriteCovers s x y n px py = true) → u.getV 0xF = 1) ∧
      ((∀ px py, px < 64 → py < 32 → spriteCovers s x y n px py = true → s.pixel px py = true) → u.getV 0xF = 0)

/-! ### Control transfer (41_control_flow.md) -/

/-- JP and JP V0 complete: pc is nnn, and nnn + V0 without a wrap to 12 bits (R121, R127; the missing wrap is the spec's decision D13, entry 25). -/
def Obligations.JumpsComplete : Prop :=
  ∀ (nnn : Addr) (s : State),
    (∃ t, Completes (.jp nnn) s t (nnn.setWidth 16) [] 0 0 [] ∧ t.pc.toNat = nnn.toNat) ∧
    (∃ t, exec (.jpV0 nnn) s = .next t ∧ t.pc.toNat = nnn.toNat + (s.getV 0).toNat ∧ t.keyWait = none ∧ Frame [] 0 0 [.pc, .keyWait] s t)

/-- CALL completes with SP below 16: it pushes pc + 2 and jumps (R122, R26; pc + 2 is the spec's decision D9, entry 13). -/
def Obligations.CallPushesTheReturnAddress : Prop :=
  ∀ (nnn : Addr) (s : State), s.sp.val < 16 →
    ∃ t, Completes (.call nnn) s t (nnn.setWidth 16) [] 0 0 [.stack, .sp] ∧ t.sp.val = s.sp.val + 1 ∧
      ∀ j : Fin 16, t.stack[j.val] = if j.val = s.sp.val then s.pc + 2 else s.stack[j.val]

/-- RET completes with SP above 0: pc is the top entry, SP goes down by one, the slots keep their values (R120, R26; D9, entry 13). -/
def Obligations.ReturnPopsIntoPc : Prop :=
  ∀ (j : Fin 16) (s : State), s.sp.val = j.val + 1 → ∃ t, Completes .ret s t s.stack[j.val] [] 0 0 [.sp] ∧ t.sp.val = j.val

/-- CALL with SP = 16 raises StackOverflow and RET with SP = 0 raises StackUnderflow (R26, R120, R122). -/
def Obligations.StackLimitsRaise : Prop :=
  (∀ (nnn : Addr) (s : State), s.sp.val = 16 → Raises (.call nnn) s .stackOverflow) ∧
  (∀ s : State, s.sp.val = 0 → Raises .ret s .stackUnderflow)

/-- Nested CALLs followed by RETs: each RET returns to the instruction after its own CALL. The calls of `l` are made one after the other, then k + 1
returns; the pc is then two past the CALL number `l.length - 1 - k`, the first of which stood at the pc of `s` and each later one at the target of the
one before (R120, R122; the source's property S5; D9, entry 13). -/
def Obligations.NestedCallsReturnInOrder : Prop :=
  ∀ (l : List Addr) (k : Nat) (s : State), s.latch = none → s.sp.val + l.length ≤ 16 → k < l.length →
    ∃ t, execAll (l.map Instr.call ++ List.replicate (k + 1) Instr.ret) s = some t ∧
      t.pc = (s.pc :: l.map (BitVec.setWidth 16)).getD (l.length - 1 - k) 0 + 2 ∧
      t.sp.val = s.sp.val + (l.length - 1 - k) ∧ Frame [] 0 0 [.pc, .keyWait, .stack, .sp] s t

/-- The four register skips complete: pc + 4 when the condition holds, else pc + 2, and nothing else but keyWait changes (R123 to R126);
5xyn and 9xyn with n other than 0 are unsupported by the spec's decision D11 (entry 19). -/
def Obligations.RegisterSkipsComplete : Prop :=
  ∀ (x y : Nibble) (kk : Byte) (s : State),
    (decodeWord (0x3#4 ++ x ++ kk) = some (.seImm x kk) ∧
      ∃ t, Completes (.seImm x kk) s t (if s.getV x = kk then s.pc + 4 else s.pc + 2) [] 0 0 []) ∧
    (decodeWord (0x4#4 ++ x ++ kk) = some (.sneImm x kk) ∧
      ∃ t, Completes (.sneImm x kk) s t (if s.getV x ≠ kk then s.pc + 4 else s.pc + 2) [] 0 0 []) ∧
    (decodeWord (0x5#4 ++ x ++ y ++ 0x0#4) = some (.seReg x y) ∧
      (∀ n : Nibble, n ≠ 0 → decodeWord (0x5#4 ++ x ++ y ++ n) = none) ∧
      ∃ t, Completes (.seReg x y) s t (if s.getV x = s.getV y then s.pc + 4 else s.pc + 2) [] 0 0 []) ∧
    (decodeWord (0x9#4 ++ x ++ y ++ 0x0#4) = some (.sneReg x y) ∧
      (∀ n : Nibble, n ≠ 0 → decodeWord (0x9#4 ++ x ++ y ++ n) = none) ∧
      ∃ t, Completes (.sneReg x y) s t (if s.getV x ≠ s.getV y then s.pc + 4 else s.pc + 2) [] 0 0 [])

/-! ### Register loads and the ALU (42_alu.md) -/

/-- LD Vx, byte and LD Vx, Vy complete: Vx is kk, or what Vy held; VF changes only as the destination (R150, R152). -/
def Obligations.RegisterLoadsComplete : Prop :=
  ∀ (x y : Nibble) (kk : Byte) (s : State),
    (decodeWord (0x6#4 ++ x ++ kk) = some (.ldImm x kk) ∧ ∃ t, Completes (.ldImm x kk) s t (s.pc + 2) [x] 0 0 [] ∧ t.getV x = kk) ∧
    (decodeWord (0x8#4 ++ x ++ y ++ 0x0#4) = some (.ldReg x y) ∧
      ∃ t, Completes (.ldReg x y) s t (s.pc + 2) [x] 0 0 [] ∧ t.getV x = s.getV y)

/-- ADD Vx, byte completes: the sum modulo 256, no flag (R151; that VF is not written is the spec's own inference from the table row). -/
def Obligations.AddImmediateWrapsWithoutFlag : Prop :=
  ∀ (x : Nibble) (kk : Byte) (s : State),
    ∃ t, Completes (.addImm x kk) s t (s.pc + 2) [x] 0 0 [] ∧ (t.getV x).toNat = ((s.getV x).toNat + kk.toNat) % 256

/-- OR, AND and XOR complete, bit by bit, without touching VF (R153, R154, R155; that VF stays is the spec's decision D30, entry 20). -/
def Obligations.BitwiseOperationsComplete : Prop :=
  ∀ (x y : Nibble) (s : State),
    (∃ t, Completes (.orReg x y) s t (s.pc + 2) [x] 0 0 [] ∧
      ∀ b, b < 8 → (t.getV x).getLsbD b = ((s.getV x).getLsbD b || (s.getV y).getLsbD b)) ∧
    (∃ t, Completes (.andReg x y) s t (s.pc + 2) [x] 0 0 [] ∧
      ∀ b, b < 8 → (t.getV x).getLsbD b = ((s.getV x).getLsbD b && (s.getV y).getLsbD b)) ∧
    (∃ t, Completes (.xorReg x y) s t (s.pc + 2) [x] 0 0 [] ∧
      ∀ b, b < 8 → (t.getV x).getLsbD b = ((s.getV x).getLsbD b ^^ (s.getV y).getLsbD b))

/-- ADD Vx, Vy completes: Vx is the sum modulo 256 and VF the carry, whichever registers x and y are; for x = F the one VfOrder writes last (R156;
that the operands are sampled first, VF among them, and the VfOrder of x = F are the spec's decision D10, entry 27). -/
def Obligations.AddReportsItsCarry : Prop :=
  ∀ (x y : Nibble) (s : State),
    decodeWord (0x8#4 ++ x ++ y ++ 0x4#4) = some (.addReg x y) ∧
    ∃ t, Completes (.addReg x y) s t (s.pc + 2) [x, 0xF] 0 0 [] ∧
      HoldsResultAndFlag s t x (BitVec.ofNat 8 ((s.getV x).toNat + (s.getV y).toNat)) (255 < (s.getV x).toNat + (s.getV y).toNat)

/-- SUB and SUBN complete: the difference modulo 256, and VF 1 exactly when nothing is borrowed; for x = F as VfOrder says (R157, R159;
operands sampled first and VfOrder are the spec's decision D10, entry 27). -/
def Obligations.SubtractionsReportNoBorrow : Prop :=
  ∀ (x y : Nibble) (s : State),
    (decodeWord (0x8#4 ++ x ++ y ++ 0x5#4) = some (.sub x y) ∧
      ∃ t, Completes (.sub x y) s t (s.pc + 2) [x, 0xF] 0 0 [] ∧
        HoldsResultAndFlag s t x (BitVec.ofNat 8 ((s.getV x).toNat + 256 - (s.getV y).toNat)) ((s.getV y).toNat ≤ (s.getV x).toNat)) ∧
    (decodeWord (0x8#4 ++ x ++ y ++ 0x7#4) = some (.subn x y) ∧
      ∃ t, Completes (.subn x y) s t (s.pc + 2) [x, 0xF] 0 0 [] ∧
        HoldsResultAndFlag s t x (BitVec.ofNat 8 ((s.getV y).toNat + 256 - (s.getV x).toNat)) ((s.getV x).toNat ≤ (s.getV y).toNat))

/-- SHR and SHL complete: Vx halved, and doubled modulo 256, VF the bit shifted out, Vy of no account; for x = F as VfOrder says (R158, R160;
VfOrder is the spec's decision D10, entry 27, and that the legacy build's shift is not followed is entry 20). -/
def Obligations.ShiftsReportTheBitShiftedOut : Prop :=
  ∀ (x y : Nibble) (s : State),
    (decodeWord (0x8#4 ++ x ++ y ++ 0x6#4) = some (.shr x y) ∧
      ∃ t, Completes (.shr x y) s t (s.pc + 2) [x, 0xF] 0 0 [] ∧
        HoldsResultAndFlag s t x (BitVec.ofNat 8 ((s.getV x).toNat / 2)) ((s.getV x).toNat % 2 = 1)) ∧
    (decodeWord (0x8#4 ++ x ++ y ++ 0xE#4) = some (.shl x y) ∧
      ∃ t, Completes (.shl x y) s t (s.pc + 2) [x, 0xF] 0 0 [] ∧
        HoldsResultAndFlag s t x (BitVec.ofNat 8 (2 * (s.getV x).toNat)) (128 ≤ (s.getV x).toNat))

/-- RND completes: Vx is a random byte, any byte whatever, masked with kk, and each execution uses a draw of its own (R161; the draw is the free value
of entry 6). -/
def Obligations.RandomByteIsMasked : Prop :=
  ∀ (x : Nibble) (kk : Byte) (s : State),
    ∃ t, Completes (.rnd x kk) s t (s.pc + 2) [x] 0 0 [.draws] ∧ t.draws = s.draws + 1 ∧
      t.getV x = Config.randomByte s.draws &&& kk ∧ ∀ b, b < 8 → kk.getLsbD b = false → (t.getV x).getLsbD b = false

/-! ### Index register and memory (43_index_memory.md) -/

/-- LD I, addr completes: I is nnn (R180). -/
def Obligations.LoadIndexCompletes : Prop :=
  ∀ (nnn : Addr) (s : State), decodeWord (0xA#4 ++ nnn) = some (.ldI nnn) ∧
    ∃ t, Completes (.ldI nnn) s t (s.pc + 2) [] 0 0 [.i] ∧ t.i.toNat = nnn.toNat

/-- ADD I, Vx completes: I is the sum modulo 4096, no flag (R181; that VF is not written is the spec's own inference from the table row). -/
def Obligations.AddIndexWrapsAt12Bits : Prop :=
  ∀ (x : Nibble) (s : State), ∃ t, Completes (.addI x) s t (s.pc + 2) [] 0 0 [.i] ∧
    t.i.toNat = (s.i.toNat + (s.getV x).toNat) % 4096

/-- LD F, Vx completes for every digit of 0 to 15 with I at the glyph, and above 15 as FontIndexPolicy says: along the line, the low nibble's glyph, or
OutOfBounds (R182; the default is the spec's decision D14, entry 2). -/
def Obligations.FontAddressFollowsItsPolicy : Prop :=
  ∀ (x : Nibble) (s : State),
    ((s.cfg.fontIndex = .linear ∨ (s.getV x).toNat ≤ 15) →
      ∃ t, Completes (.ldF x) s t (s.pc + 2) [] 0 0 [.i] ∧ t.i.toNat = 0x050 + 5 * (s.getV x).toNat) ∧
    (s.cfg.fontIndex = .lowNibble →
      ∃ t, Completes (.ldF x) s t (s.pc + 2) [] 0 0 [.i] ∧ t.i.toNat = 0x050 + 5 * ((s.getV x).toNat % 16)) ∧
    (s.cfg.fontIndex = .fault → 15 < (s.getV x).toNat → Raises (.ldF x) s .outOfBounds)

/-- LD B, Vx stores the hundreds, tens and units digits at I, I + 1 and I + 2; when I + 2 is past 0xFFF it raises OutOfBounds and no byte is
written (R183). -/
def Obligations.DecimalDigitsAreStored : Prop :=
  ∀ (x : Nibble) (s : State), decodeWord (0xF#4 ++ x ++ 0x33#8) = some (.ldB x) ∧
    (s.i.toNat + 2 ≤ 0xFFF →
      ∃ t, Completes (.ldB x) s t (s.pc + 2) [] s.i.toNat 3 [] ∧
        (t.mem.read s.i.toNat).toNat ≤ 2 ∧ (t.mem.read (s.i.toNat + 1)).toNat ≤ 9 ∧ (t.mem.read (s.i.toNat + 2)).toNat ≤ 9 ∧
        (s.getV x).toNat = 100 * (t.mem.read s.i.toNat).toNat + 10 * (t.mem.read (s.i.toNat + 1)).toNat +
          (t.mem.read (s.i.toNat + 2)).toNat) ∧
    (0xFFF < s.i.toNat + 2 → Raises (.ldB x) s .outOfBounds)

/-- LD [I], Vx stores V0 to Vx at I onwards when I + x is in memory, raises OutOfBounds and writes no byte when it is not, and moves I only under
LoadStoreIncrementsI (R184; the parameter's default is the spec's decision D17, entry 2). -/
def Obligations.RegistersAreStored : Prop :=
  ∀ (x : Nibble) (s : State),
    (s.i.toNat + x.toNat ≤ 0xFFF →
      ∃ t, Completes (.ldMemStore x) s t (s.pc + 2) [] s.i.toNat (x.toNat + 1) [.i] ∧
        (∀ j : Nibble, j.toNat ≤ x.toNat → t.mem.read (s.i.toNat + j.toNat) = s.getV j) ∧
        t.i.toNat = if s.cfg.loadStoreIncrementsI = true then (s.i.toNat + x.toNat + 1) % 4096 else s.i.toNat) ∧
    (0xFFF < s.i.toNat + x.toNat → Raises (.ldMemStore x) s .outOfBounds)

/-- LD Vx, [I] loads V0 to Vx from I onwards when I + x is in memory, raises OutOfBounds and writes no register when it is not, and moves I only under
LoadStoreIncrementsI (R185; the parameter's default is the spec's decision D17, entry 2). -/
def Obligations.RegistersAreLoaded : Prop :=
  ∀ (x : Nibble) (s : State),
    (s.i.toNat + x.toNat ≤ 0xFFF →
      ∃ t, Completes (.ldMemLoad x) s t (s.pc + 2) (regsUpTo x) 0 0 [.i] ∧
        (∀ j : Nibble, j.toNat ≤ x.toNat → t.getV j = s.mem.read (s.i.toNat + j.toNat)) ∧
        t.i.toNat = if s.cfg.loadStoreIncrementsI = true then (s.i.toNat + x.toNat + 1) % 4096 else s.i.toNat) ∧
    (0xFFF < s.i.toNat + x.toNat → Raises (.ldMemLoad x) s .outOfBounds)

/-- Registers stored by LD [I], Vx and loaded back by LD Vx, [I] with the same I are the same, whatever the registers held in between (R184, R185). -/
def Obligations.StoredRegistersLoadBack : Prop :=
  ∀ (x : Nibble) (s t u : State), s.i.toNat + x.toNat ≤ 0xFFF → exec (.ldMemStore x) s = .next t → u.mem = t.mem → u.i = s.i →
    ∃ w, exec (.ldMemLoad x) u = .next w ∧ ∀ j : Nibble, j.toNat ≤ x.toNat → w.getV j = s.getV j

/-- What the fetch after a store reads: a store by LD [I], Vx or LD B, Vx completes, and each of the two bytes of the next instruction is the byte just
stored there, or the old one where the store does not reach it, wherever the store starts (R62, R275). -/
def Obligations.StoredCodeIsFetchedNext : Prop :=
  ∀ (x : Nibble) (s : State), s.pc.toNat ≤ 0xFFC →
    (s.i.toNat + x.toNat ≤ 0xFFF →
      ∃ t, exec (.ldMemStore x) s = .next t ∧ t.pc = s.pc + 2 ∧
        ∃ hi lo, t.fetchWord = some (hi ++ lo) ∧
          (∀ j : Nibble, j.toNat ≤ x.toNat → s.i.toNat + j.toNat = s.pc.toNat + 2 → hi = s.getV j) ∧
          (∀ j : Nibble, j.toNat ≤ x.toNat → s.i.toNat + j.toNat = s.pc.toNat + 3 → lo = s.getV j) ∧
          (¬ (s.i.toNat ≤ s.pc.toNat + 2 ∧ s.pc.toNat + 2 ≤ s.i.toNat + x.toNat) → hi = s.mem.read (s.pc.toNat + 2)) ∧
          (¬ (s.i.toNat ≤ s.pc.toNat + 3 ∧ s.pc.toNat + 3 ≤ s.i.toNat + x.toNat) → lo = s.mem.read (s.pc.toNat + 3))) ∧
    (s.i.toNat + 2 ≤ 0xFFF →
      ∃ t, exec (.ldB x) s = .next t ∧ t.pc = s.pc + 2 ∧
        ∃ hi lo, t.fetchWord = some (hi ++ lo) ∧
          (∀ k, k < 3 → s.i.toNat + k = s.pc.toNat + 2 → hi.toNat = (s.getV x).toNat / 10 ^ (2 - k) % 10) ∧
          (∀ k, k < 3 → s.i.toNat + k = s.pc.toNat + 3 → lo.toNat = (s.getV x).toNat / 10 ^ (2 - k) % 10) ∧
          (¬ (s.i.toNat ≤ s.pc.toNat + 2 ∧ s.pc.toNat + 2 ≤ s.i.toNat + 2) → hi = s.mem.read (s.pc.toNat + 2)) ∧
          (¬ (s.i.toNat ≤ s.pc.toNat + 3 ∧ s.pc.toNat + 3 ≤ s.i.toNat + 2) → lo = s.mem.read (s.pc.toNat + 3)))

/-! ### Keys and timers (44_keys_timers.md, 60_exceptions.md R230) -/

/-- SKP and SKNP complete when Vx names a key, or under KeyIndexPolicy = lowNibble: they skip when that key is pressed, and not pressed; the keys are not
consumed (R199, R200, R201; the policy's default is the spec's decision D15, entry 2). -/
def Obligations.KeySkipsComplete : Prop :=
  ∀ (x k : Nibble) (s : State), k.toNat = (s.getV x).toNat % 16 → (s.cfg.keyIndex = .lowNibble ∨ (s.getV x).toNat ≤ 15) →
    (∃ t, Completes (.skp x) s t (if s.key k = true then s.pc + 4 else s.pc + 2) [] 0 0 []) ∧
    (∃ t, Completes (.sknp x) s t (if s.key k = true then s.pc + 2 else s.pc + 4) [] 0 0 [])

/-- SKP and SKNP with Vx above 0xF raise InvalidKey under KeyIndexPolicy = fault (R199: the spec's decision D15, entry 2). -/
def Obligations.KeyNumberOutOfRangeRaises : Prop :=
  ∀ (x : Nibble) (s : State), s.cfg.keyIndex = .fault → 15 < (s.getV x).toNat →
    Raises (.skp x) s .invalidKey ∧ Raises (.sknp x) s .invalidKey

/-- The timer instructions complete: Vx takes DT, DT takes Vx, ST takes Vx (R202, R204, R205). -/
def Obligations.TimerMovesComplete : Prop :=
  ∀ (x : Nibble) (s : State),
    (decodeWord (0xF#4 ++ x ++ 0x07#8) = some (.ldVxDT x) ∧ ∃ t, Completes (.ldVxDT x) s t (s.pc + 2) [x] 0 0 [] ∧ t.getV x = s.dt) ∧
    (decodeWord (0xF#4 ++ x ++ 0x15#8) = some (.ldDTVx x) ∧ ∃ t, Completes (.ldDTVx x) s t (s.pc + 2) [] 0 0 [.dt] ∧ t.dt = s.getV x) ∧
    (decodeWord (0xF#4 ++ x ++ 0x18#8) = some (.ldSTVx x) ∧ ∃ t, Completes (.ldSTVx x) s t (s.pc + 2) [] 0 0 [.st] ∧ t.st = s.getV x)

/-- LD Vx, K waits with pc unchanged when no key is pressed; otherwise it completes with Vx a pressed key, the lowest one under the default KeySelect
(R203; the poll and the default are the spec's decision D16, entries 2 and 7). -/
def Obligations.KeyWaitPollsTheKeypad : Prop :=
  ∀ (x : Nibble) (s : State),
    ((∀ k, s.key k = false) → exec (.ldVxK x) s = .next { s with keyWait := some x }) ∧
    ((∃ k, s.key k = true) →
      ∃ t k, Completes (.ldVxK x) s t (s.pc + 2) [x] 0 0 [] ∧ s.key k = true ∧ (t.getV x).toNat = k.toNat ∧
        (s.cfg.keySelect = .lowest → ∀ j, s.key j = true → k.toNat ≤ j.toNat))

/-- A program that waits at an Fx0A goes on at the first step after a key is set: Vx is that key, whatever KeySelect is (R203, R234, R276; D16). -/
def Obligations.WaitEndsWithTheKeyTheHostSets : Prop :=
  ∀ (x k : Nibble) (w : Word) (s : State), s.latch = none → (s.cfg.oddPc = .execute ∨ s.pc.toNat % 2 = 0) → s.fetchWord = some w →
    decodeWord w = some (.ldVxK x) → (∀ j, s.key j = false) →
    ∃ t, hostRun [.step, .setKey k.toNat true, .step] s = .next t ∧ (t.getV x).toNat = k.toNat ∧ t.pc = s.pc + 2 ∧ t.keyWait = none ∧
      Frame [x] 0 0 [.pc, .keyWait, .keys] s t

/-! ### What no instruction does (the writer lists of 10_state.md and 20_memory.md) -/

/-- No step changes a key state or a parameter, and none clears the redraw flag (R29, R30; the parameters are fixed by entry 1). -/
def Obligations.StepLeavesKeysParametersAndRedraw : Prop :=
  ∀ s t, step s = .next t → t.keys = s.keys ∧ t.cfg = s.cfg ∧ (s.redraw = true → t.redraw = true)

/-- No instruction but Fx33 and Fx55 changes memory (R56). -/
def Obligations.OnlyFx33AndFx55WriteMemory : Prop :=
  ∀ i s t, exec i s = .next t → (∀ x, i ≠ .ldB x) → (∀ x, i ≠ .ldMemStore x) → t.mem = s.mem

/-- The framebuffer and the redraw flag are changed only by 00E0 and Dxyn (R28, R30). -/
def Obligations.OnlyDisplayInstructionsTouchTheDisplay : Prop :=
  ∀ i s t, exec i s = .next t → i ≠ .cls → (∀ x y n, i ≠ .drw x y n) → t.fb = s.fb ∧ t.redraw = s.redraw

/-- The stack and SP are changed only by 2nnn and 00EE, DT only by Fx15, ST only by Fx18 (R26, R27). -/
def Obligations.StackAndTimersHaveTheirWriters : Prop :=
  ∀ i s t, exec i s = .next t →
    ((∀ a, i ≠ .call a) → t.stack = s.stack) ∧ ((∀ a, i ≠ .call a) → i ≠ .ret → t.sp = s.sp) ∧
    ((∀ x, i ≠ .ldDTVx x) → t.dt = s.dt) ∧ ((∀ x, i ≠ .ldSTVx x) → t.st = s.st)

/-- I is changed only by Annn, Fx1E and Fx29, and by Fx55 and Fx65 when LoadStoreIncrementsI is true (R24). -/
def Obligations.IndexRegisterHasItsWriters : Prop :=
  ∀ i s t, exec i s = .next t → t.i ≠ s.i →
    (∃ a, i = .ldI a) ∨ (∃ x, i = .addI x) ∨ (∃ x, i = .ldF x) ∨
      (s.cfg.loadStoreIncrementsI = true ∧ ∃ x, i = .ldMemStore x ∨ i = .ldMemLoad x)

/-- VF is changed only by the six flag instructions, and by the others where it is the ordinary destination (R23). -/
def Obligations.FlagRegisterHasItsWriters : Prop :=
  ∀ i s t, exec i s = .next t → t.getV 0xF ≠ s.getV 0xF →
    (∃ x y, i = .addReg x y ∨ i = .sub x y ∨ i = .shr x y ∨ i = .subn x y ∨ i = .shl x y) ∨ (∃ x y n, i = .drw x y n) ∨
    (∃ kk, i = .ldImm 0xF kk ∨ i = .addImm 0xF kk ∨ i = .rnd 0xF kk) ∨
    (∃ y, i = .ldReg 0xF y ∨ i = .orReg 0xF y ∨ i = .andReg 0xF y ∨ i = .xorReg 0xF y) ∨
    i = .ldVxDT 0xF ∨ i = .ldVxK 0xF ∨ i = .ldMemLoad 0xF

/-! ### Invariants -/

/-- Reset meets the invariant, and no Fx0A waits. -/
def Obligations.ResetMeetsTheInvariant : Prop := State.reset.Inv ∧ State.reset.WaitsAtItsFx0A

/-- Every step keeps the invariant: memory canonical, I within 12 bits, pc at most 0x10FE, stack entries at most 0x1000, the latch a step's error at this pc
(R24, R25, R51, R221 to R224). -/
def Obligations.StepKeepsTheInvariant : Prop := ∀ s t, s.Inv → step s = .next t → t.Inv

/-- Every list of host operations, in any order, runs to its end and keeps the invariant: ticks, key changes, loads, redraw consumption, resets and steps
(R233, R238; D29, entry 18). -/
def Obligations.EveryHostScheduleKeepsTheInvariant : Prop := ∀ (ops : List HostOp) (s : State), s.Inv → ∃ t, hostRun ops s = .next t ∧ t.Inv

/-- Every step keeps a waiting Fx0A at the pc: while keyWait = some x the next fetch finds that Fx0A (R31: the spec's decision D16). -/
def Obligations.StepKeepsTheWaitAtItsFx0A : Prop := ∀ s t, s.WaitsAtItsFx0A → step s = .next t → t.WaitsAtItsFx0A

/-- Two canonical memories that read the same at every address are the same data. -/
def Obligations.CanonicalMemoriesAreDeterminedByTheirReads : Prop :=
  ∀ m m' : Memory, m.wf → m'.wf → (∀ a, m.read a = m'.read a) → m = m'

/-! ### Reset and the host operations (60_exceptions.md R230 to R237, 70_reset_and_hazards.md R270) -/

/-- The reset state: pc = 0x200 by the source; every register, timer, stack entry, pixel and key at 0, no redraw, no wait, no latched error, memory 0 outside
0x050 to 0x09F. All but the pc are the spec's decisions D1 to D7 and D18 (entries 4 and 5). -/
def Obligations.ResetValues : Prop :=
  State.reset.pc = 0x200 ∧ (∀ r, State.reset.getV r = 0) ∧ State.reset.i = 0 ∧ State.reset.sp = 0 ∧
  (∀ j : Fin 16, State.reset.stack[j.val] = 0) ∧ State.reset.dt = 0 ∧ State.reset.st = 0 ∧
  (∀ x y, State.reset.pixel x y = false) ∧ (∀ k, State.reset.key k = false) ∧ State.reset.redraw = false ∧
  State.reset.keyWait = none ∧ State.reset.latch = none ∧
  ∀ a, ¬ (0x050 ≤ a ∧ a ≤ 0x09F) → State.reset.mem.read a = 0

/-- reset() places glyph d of the font table at 0x050 + 5 d to 0x050 + 5 d + 4, top row first, whatever table the instance has (R63). -/
def Obligations.ResetPlacesTheFontTable : Prop :=
  ∀ (s : State) (d : Fin 16) (k : Fin 5),
    s.hostReset.mem.read (0x050 + 5 * d.val + k.val) = s.cfg.fontTable[5 * d.val + k.val]'(by omega)

/-- reset(), from any state: it returns Ok; pc is 0x200; every register, timer, stack entry, pixel and key is at 0, no redraw, no wait, the latch is cleared
(R228), every byte outside the font area reads 0; the parameters and the count of draws stay (entry 18), and nothing else from before survives (R270). The
values but the pc are the spec's decisions D1 to D7 and D18 (entries 4 and 5). -/
def Obligations.HostResetLeavesNothingFromBefore : Prop :=
  ∀ s : State, ∃ t, hostCall .reset s = .next (.ok, t) ∧ t.pc = 0x200 ∧ (∀ r, t.getV r = 0) ∧ t.i = 0 ∧ t.sp = 0 ∧
    (∀ j : Fin 16, t.stack[j.val] = 0) ∧ t.dt = 0 ∧ t.st = 0 ∧ (∀ x y, t.pixel x y = false) ∧ (∀ k, t.key k = false) ∧
    t.redraw = false ∧ t.keyWait = none ∧ t.latch = none ∧ t.cfg = s.cfg ∧ t.draws = s.draws ∧
    (∀ a, ¬ (0x050 ≤ a ∧ a ≤ 0x09F) → t.mem.read a = 0) ∧
    ∀ s' : State, s'.cfg = s.cfg → s'.draws = s.draws → hostCall .reset s' = .next (.ok, t)

/-- tick() any number of times: each timer goes down by one a tick, never below 0, and nothing else changes, whatever keyWait and the latch hold (R230; the
latter is the spec's decision D21, entry 22). -/
def Obligations.TicksCountDownToZero : Prop :=
  ∀ (n : Nat) (s : State), ∃ t, hostRun (List.replicate n .tick) s = .next t ∧ t.dt.toNat = s.dt.toNat - n ∧ t.st.toNat = s.st.toNat - n ∧
    Frame [] 0 0 [.dt, .st] s t

/-- setKey(k, p) writes Key[k] alone for k up to 15; above that it returns InvalidKey and writes nothing (R234); that this
error is returned and not latched is the spec's decision D20 (entry 22). -/
def Obligations.SetKeyWritesOneKey : Prop :=
  ∀ (k : Nat) (p : Bool) (s : State),
    (k ≤ 15 → ∃ t, hostCall (.setKey k p) s = .next (.ok, t) ∧ Frame [] 0 0 [.keys] s t ∧
      ∀ j : Nibble, t.key j = if j.toNat = k then p else s.key j) ∧
    (15 < k → hostCall (.setKey k p) s = .next (.error .invalidKey, s))

/-- consumeRedraw() sets the redraw flag to false and writes nothing else; the accessors return the pixels and the flag and change nothing (R235, R237;
that they do so with an error latched is the spec's decision D21, entry 22). -/
def Obligations.RedrawIsConsumedAndRead : Prop :=
  ∀ s : State,
    (∃ t, hostCall .consumeRedraw s = .next (.ok, t) ∧ t.redraw = false ∧ Frame [] 0 0 [.redraw] s t) ∧
    (∃ fb, hostCall .readFramebuffer s = .next (.pixels fb, s) ∧
      ∀ x y, x < 64 → y < 32 → fb.getLsbD (y * 64 + x) = s.pixel x y) ∧
    hostCall .readRedraw s = .next (.flag s.redraw, s)

/-- load(b) copies a program of at most 3584 bytes to 0x200 onwards and changes nothing else; a longer one is turned away with ProgramTooLarge and nothing
written, the latch included (R236: when it may be called and what it leaves is the spec's decision D26, and the latch D20, entry 22). -/
def Obligations.LoadCopiesTheProgram : Prop :=
  ∀ (bytes : List Byte) (s : State),
    (bytes.length ≤ 3584 → ∃ t, hostCall (.load bytes) s = .next (.ok, t) ∧ Frame [] 0x200 bytes.length [] s t ∧
      ∀ j (h : j < bytes.length), t.mem.read (0x200 + j) = bytes[j]) ∧
    (3584 < bytes.length → hostCall (.load bytes) s = .next (.error .programTooLarge, s))
end

