-- ==== Sys2Proof/Laws/Decode.lean ====
section
/-! SUPPORT. The fields of an encoded word are the fields it was made of (30_encoding.md R70). -/

namespace Sys2Proof

theorem getLsbD_wordNnn (op : Nibble) (a : Addr) (j : Nat) :
    (wordNnn op a).getLsbD j = if j < 12 then a.getLsbD j else op.getLsbD (j - 12) := BitVec.getLsbD_append

theorem getLsbD_wordXkk (op x : Nibble) (k : Byte) (j : Nat) :
    (wordXkk op x k).getLsbD j =
      if j < 8 then k.getLsbD j else if j - 8 < 4 then x.getLsbD (j - 8) else op.getLsbD (j - 8 - 4) := by
  show ((op ++ x) ++ k).getLsbD j = _
  rw [BitVec.getLsbD_append, BitVec.getLsbD_append]

theorem getLsbD_wordXyn (op x y n : Nibble) (j : Nat) :
    (wordXyn op x y n).getLsbD j =
      if j < 4 then n.getLsbD j else if j - 4 < 4 then y.getLsbD (j - 4) else
        if j - 4 - 4 < 4 then x.getLsbD (j - 4 - 4) else op.getLsbD (j - 4 - 4 - 4) := by
  show (((op ++ x) ++ y) ++ n).getLsbD j = _
  rw [BitVec.getLsbD_append, BitVec.getLsbD_append, BitVec.getLsbD_append]

/-- A field of width `n` at bit `lo` of a word, read bit by bit. -/
theorem field_eq {n : Nat} {w : Word} {lo : Nat} {f : BitVec n} (h : ∀ j < n, w.getLsbD (lo + j) = f.getLsbD j) :
    w.extractLsb' lo n = f := by
  apply BitVec.eq_of_getLsbD_eq
  intro j hj
  simp [hj, h j hj]

@[simp] theorem opField_wordNnn (op : Nibble) (a : Addr) : opField (wordNnn op a) = op :=
  field_eq fun j hj => by rw [getLsbD_wordNnn, if_neg (by omega)]; congr 1; omega

@[simp] theorem nnnField_wordNnn (op : Nibble) (a : Addr) : nnnField (wordNnn op a) = a :=
  field_eq fun j hj => by rw [getLsbD_wordNnn, if_pos (by omega)]; congr 1; omega

@[simp] theorem opField_wordXkk (op x : Nibble) (k : Byte) : opField (wordXkk op x k) = op :=
  field_eq fun j hj => by rw [getLsbD_wordXkk, if_neg (by omega), if_neg (by omega)]; congr 1; omega

@[simp] theorem xField_wordXkk (op x : Nibble) (k : Byte) : xField (wordXkk op x k) = x :=
  field_eq fun j hj => by rw [getLsbD_wordXkk, if_neg (by omega), if_pos (by omega)]; congr 1; omega

@[simp] theorem kkField_wordXkk (op x : Nibble) (k : Byte) : kkField (wordXkk op x k) = k :=
  field_eq fun j hj => by rw [getLsbD_wordXkk, if_pos (by omega)]; congr 1; omega

@[simp] theorem opField_wordXyn (op x y n : Nibble) : opField (wordXyn op x y n) = op :=
  field_eq fun j hj => by rw [getLsbD_wordXyn, if_neg (by omega), if_neg (by omega), if_neg (by omega)]; congr 1; omega

@[simp] theorem xField_wordXyn (op x y n : Nibble) : xField (wordXyn op x y n) = x :=
  field_eq fun j hj => by rw [getLsbD_wordXyn, if_neg (by omega), if_neg (by omega), if_pos (by omega)]; congr 1; omega

@[simp] theorem yField_wordXyn (op x y n : Nibble) : yField (wordXyn op x y n) = y :=
  field_eq fun j hj => by rw [getLsbD_wordXyn, if_neg (by omega), if_pos (by omega)]; congr 1; omega

@[simp] theorem nField_wordXyn (op x y n : Nibble) : nField (wordXyn op x y n) = n :=
  field_eq fun j hj => by rw [getLsbD_wordXyn, if_pos (by omega)]; congr 1; omega

/-- Every word is its op, x, y and n fields put together; likewise with kk, and with nnn. -/
theorem word_eq_wordXyn (w : Word) : w = wordXyn (opField w) (xField w) (yField w) (nField w) := by
  apply BitVec.eq_of_getLsbD_eq
  intro j hj
  rw [getLsbD_wordXyn]
  simp only [opField, xField, yField, nField, BitVec.getLsbD_extractLsb']
  split
  · next h => simp [h]
  · split
    · next h1 h2 => simp [h2]; congr 1; omega
    · split
      · next h1 h2 h3 => simp [h3]; congr 1; omega
      · next h1 h2 h3 => simp [show j - 4 - 4 - 4 < 4 by omega]; congr 1; omega

theorem word_eq_wordXkk (w : Word) : w = wordXkk (opField w) (xField w) (kkField w) := by
  apply BitVec.eq_of_getLsbD_eq
  intro j hj
  rw [getLsbD_wordXkk]
  simp only [opField, xField, kkField, BitVec.getLsbD_extractLsb']
  split
  · next h => simp [h]
  · split
    · next h1 h2 => simp [h2]; congr 1; omega
    · next h1 h2 => simp [show j - 8 - 4 < 4 by omega]; congr 1; omega

theorem word_eq_wordNnn (w : Word) : w = wordNnn (opField w) (nnnField w) := by
  apply BitVec.eq_of_getLsbD_eq
  intro j hj
  rw [getLsbD_wordNnn]
  simp only [opField, nnnField, BitVec.getLsbD_extractLsb']
  split
  · next h => simp [h]
  · next h1 => simp [show j - 12 < 4 by omega]; congr 1; omega

end Sys2Proof
end

