-- ==== Sys2Proof/Laws/Memory.lean ====
section
/-! SUPPORT. The laws of memory: a read after a write, the canonical form kept by every operation, and what the range-checked accesses answer. -/

namespace Sys2Proof.Machine

@[simp] theorem Memory.read_nil (a : Nat) : Memory.read [] a = Memory.resetByte a := rfl

theorem Memory.read_cons (c : Host.Cell) (m : Memory) (a : Nat) :
    Memory.read (c :: m) a = if c.1 = a then c.2 else Memory.read m a := rfl

/-- After an erase the address reads as unlisted, every other one as before. -/
theorem Memory.read_erase (m : Memory) (a q : Nat) :
    (Memory.erase m a).read q = if a = q then Memory.resetByte q else m.read q := by
  induction m with
  | nil => simp [Memory.erase]
  | cons c m ih =>
    simp only [Memory.erase, List.filter_cons, Memory.read_cons] at ih ⊢
    by_cases hc : c.1 = a
    · simp only [hc, bne_self_eq_false, Bool.false_eq_true, if_false, ih]
      split <;> simp_all
    · simp only [bne_iff_ne, ne_eq, hc, not_false_eq_true, if_true, Memory.read_cons, ih]
      by_cases hq : c.1 = q
      · simp [hq, show a ≠ q from fun h => hc (hq.trans h.symm)]
      · simp [hq]

/-- After an entry is placed for an address that had none, it reads as that entry, every other one as before. -/
theorem Memory.read_place (m : Memory) (a q : Nat) (b : Byte) (hm : ∀ c ∈ m, c.1 ≠ a) :
    (Memory.place m a b).read q = if a = q then b else m.read q := by
  induction m with
  | nil => simp [Memory.place, Memory.read]
  | cons c m ih =>
    have hc : c.1 ≠ a := hm c (by simp)
    have hrest : ∀ d ∈ m, d.1 ≠ a := fun d hd => hm d (by simp [hd])
    simp only [Memory.place]
    split
    · simp [Memory.read_cons]
    · simp only [Memory.read_cons, ih hrest]
      by_cases hq : c.1 = q
      · simp [hq, show a ≠ q from fun h => hc (hq.trans h.symm)]
      · simp [hq]

theorem Memory.ne_of_mem_erase {m : Memory} {a : Nat} {c : Host.Cell} (h : c ∈ Memory.erase m a) : c.1 ≠ a := by
  simpa using (List.mem_filter.mp h).2

/-- A read after a write: the byte written at its address, the old byte elsewhere. -/
@[simp] theorem Memory.read_write (m : Memory) (a q : Nat) (b : Byte) :
    (Memory.write m a b).read q = if a = q then b else m.read q := by
  simp only [Memory.write]
  split
  · next hb =>
    rw [Memory.read_erase]
    split <;> simp_all
  · rw [Memory.read_place _ _ _ _ fun c hc => Memory.ne_of_mem_erase hc, Memory.read_erase]
    split <;> simp_all

/-- A read after a block is written: the block's byte inside it, the old byte elsewhere. -/
theorem Memory.read_writeBytes (m : Memory) (a q : Nat) (bs : List Byte) :
    (Memory.writeBytes m a bs).read q = if a ≤ q ∧ q < a + bs.length then bs.getD (q - a) 0 else m.read q := by
  induction bs generalizing m a with
  | nil => simp only [Memory.writeBytes, List.length_nil]; rw [if_neg (by omega)]
  | cons b bs ih =>
    simp only [Memory.writeBytes, ih, Memory.read_write, List.length_cons]
    by_cases h1 : a + 1 ≤ q ∧ q < a + 1 + bs.length
    · rw [if_pos h1, if_pos (by omega)]
      obtain ⟨j, hj⟩ : ∃ j, q - a = j + 1 := ⟨q - a - 1, by omega⟩
      rw [hj, List.getD_cons_succ]
      congr 1
      omega
    · rw [if_neg h1]
      by_cases h2 : a = q
      · subst h2; simp
      · rw [if_neg h2, if_neg (by omega)]

/-- An address outside a written block reads as before. -/
theorem Memory.read_writeBytes_outside (m : Memory) (a q : Nat) (bs : List Byte) (h : ¬ (a ≤ q ∧ q < a + bs.length)) :
    (Memory.writeBytes m a bs).read q = m.read q := by
  rw [Memory.read_writeBytes, if_neg h]

@[simp] theorem Memory.length_readBytes (m : Memory) (a n : Nat) : (m.readBytes a n).length = n := by
  induction n generalizing a with
  | zero => rfl
  | succ n ih => simp [Memory.readBytes, ih]

/-- The k-th byte of a block read. -/
theorem Memory.getD_readBytes (m : Memory) (a n k : Nat) (d : Byte) (h : k < n) : (m.readBytes a n).getD k d = m.read (a + k) := by
  induction n generalizing a k with
  | zero => omega
  | succ n ih =>
    cases k with
    | zero => simp [Memory.readBytes]
    | succ k =>
      simp only [Memory.readBytes, List.getD_cons_succ]
      rw [ih (a + 1) k (by omega)]
      congr 1
      omega

/-- Reset memory is canonical. -/
theorem Memory.wf_nil : Memory.wf [] := by simp [Memory.wf]

theorem Memory.wf_erase {m : Memory} (h : m.wf) (a : Nat) : (m.erase a).wf :=
  ⟨h.1.filter _, fun c hc => h.2 c (List.mem_of_mem_filter hc)⟩

theorem Memory.mem_place {m : Memory} {a : Nat} {b : Byte} {c : Host.Cell} (h : c ∈ m.place a b) : c = (a, b) ∨ c ∈ m := by
  induction m with
  | nil => simpa [Memory.place] using h
  | cons d m ih =>
    simp only [Memory.place] at h
    split at h
    · simpa using h
    · rcases List.mem_cons.mp h with h | h
      · simp [h]
      · rcases ih h with h | h <;> simp [h]

theorem Memory.pairwise_place {m : Memory} (hp : m.Pairwise (fun c d => c.1 < d.1)) (a : Nat) (b : Byte)
    (hm : ∀ c ∈ m, c.1 ≠ a) : (m.place a b).Pairwise (fun c d => c.1 < d.1) := by
  induction m with
  | nil => simp [Memory.place]
  | cons d m ih =>
    obtain ⟨hd, hp'⟩ := List.pairwise_cons.mp hp
    simp only [Memory.place]
    split
    · next hlt =>
      refine List.pairwise_cons.mpr ⟨fun c hc => ?_, hp⟩
      rcases List.mem_cons.mp hc with rfl | hc
      · exact hlt
      · exact Nat.lt_trans hlt (hd c hc)
    · next hge =>
      have hne : d.1 ≠ a := hm d (by simp)
      refine List.pairwise_cons.mpr ⟨fun c hc => ?_, ih hp' fun c hc => hm c (by simp [hc])⟩
      rcases Memory.mem_place hc with rfl | hc
      · show d.1 < a; omega
      · exact hd c hc

/-- A write to an existing address keeps the canonical form. -/
theorem Memory.wf_write {m : Memory} (h : m.wf) {a : Nat} (ha : a < memSize) (b : Byte) : (m.write a b).wf := by
  have he := Memory.wf_erase h a
  simp only [Memory.write]
  split
  · exact he
  · next hb =>
    refine ⟨Memory.pairwise_place he.1 a b fun c hc => Memory.ne_of_mem_erase hc, fun c hc => ?_⟩
    rcases Memory.mem_place hc with rfl | hc
    · exact ⟨ha, hb⟩
    · exact he.2 c hc

/-- A block written inside memory keeps the canonical form. -/
theorem Memory.wf_writeBytes {m : Memory} (h : m.wf) (a : Nat) (bs : List Byte) (hr : a + bs.length ≤ memSize) :
    (m.writeBytes a bs).wf := by
  induction bs generalizing m a with
  | nil => exact h
  | cons b bs ih =>
    simp only [List.length_cons] at hr
    exact ih (Memory.wf_write h (by omega) b) (a + 1) (by omega)

/-- All a range-checked read can do. -/
theorem State.memRead_eq_some {s : State} {addr n : Nat} {bs : List Byte} :
    s.memRead addr n = some bs ↔ addr + n ≤ memSize ∧ bs = s.mem.readBytes addr n := by
  simp only [State.memRead]; split <;> simp_all [eq_comm]

theorem State.memRead_eq_none {s : State} {addr n : Nat} : s.memRead addr n = none ↔ memSize < addr + n := by
  simp [State.memRead]

/-- All a range-checked write can do. -/
theorem State.memWrite_eq_some {s t : State} {addr : Nat} {bs : List Byte} :
    s.memWrite addr bs = some t ↔ addr + bs.length ≤ memSize ∧ t = { s with mem := s.mem.writeBytes addr bs } := by
  simp only [State.memWrite]; split <;> simp_all [eq_comm]

theorem State.memWrite_eq_none {s : State} {addr : Nat} {bs : List Byte} :
    s.memWrite addr bs = none ↔ memSize < addr + bs.length := by
  simp [State.memWrite]

end Sys2Proof.Machine
end

