-- ==== Sys2Proof/Laws/State.lean ====
section
/-! SUPPORT. One lemma per element of State and operation, true by unfolding the operation once. -/

namespace Sys2Proof.Machine

@[simp] theorem State.setV_v (s : State) (r : Nibble) (b : Byte) : (s.setV r b).v = s.v.set r.toNat b r.isLt := rfl
@[simp] theorem State.setV_i (s : State) (r : Nibble) (b : Byte) : (s.setV r b).i = s.i := rfl
@[simp] theorem State.setV_pc (s : State) (r : Nibble) (b : Byte) : (s.setV r b).pc = s.pc := rfl
@[simp] theorem State.setV_stack (s : State) (r : Nibble) (b : Byte) : (s.setV r b).stack = s.stack := rfl
@[simp] theorem State.setV_sp (s : State) (r : Nibble) (b : Byte) : (s.setV r b).sp = s.sp := rfl
@[simp] theorem State.setV_dt (s : State) (r : Nibble) (b : Byte) : (s.setV r b).dt = s.dt := rfl
@[simp] theorem State.setV_st (s : State) (r : Nibble) (b : Byte) : (s.setV r b).st = s.st := rfl
@[simp] theorem State.setV_fb (s : State) (r : Nibble) (b : Byte) : (s.setV r b).fb = s.fb := rfl
@[simp] theorem State.setV_keys (s : State) (r : Nibble) (b : Byte) : (s.setV r b).keys = s.keys := rfl
@[simp] theorem State.setV_redraw (s : State) (r : Nibble) (b : Byte) : (s.setV r b).redraw = s.redraw := rfl
@[simp] theorem State.setV_keyWait (s : State) (r : Nibble) (b : Byte) : (s.setV r b).keyWait = s.keyWait := rfl
@[simp] theorem State.setV_latch (s : State) (r : Nibble) (b : Byte) : (s.setV r b).latch = s.latch := rfl
@[simp] theorem State.setV_mem (s : State) (r : Nibble) (b : Byte) : (s.setV r b).mem = s.mem := rfl
@[simp] theorem State.setV_cfg (s : State) (r : Nibble) (b : Byte) : (s.setV r b).cfg = s.cfg := rfl
@[simp] theorem State.setV_draws (s : State) (r : Nibble) (b : Byte) : (s.setV r b).draws = s.draws := rfl
@[simp] theorem State.setV_key (s : State) (r : Nibble) (b : Byte) (q : Nibble) : (s.setV r b).key q = s.key q := rfl
@[simp] theorem State.setV_pixel (s : State) (r : Nibble) (b : Byte) (px py : Nat) : (s.setV r b).pixel px py = s.pixel px py := rfl

@[simp] theorem State.setI_v (s : State) (n : Nat) : (s.setI n).v = s.v := rfl
@[simp] theorem State.setI_i (s : State) (n : Nat) : (s.setI n).i = BitVec.ofNat 16 (n % 4096) := rfl
@[simp] theorem State.setI_pc (s : State) (n : Nat) : (s.setI n).pc = s.pc := rfl
@[simp] theorem State.setI_stack (s : State) (n : Nat) : (s.setI n).stack = s.stack := rfl
@[simp] theorem State.setI_sp (s : State) (n : Nat) : (s.setI n).sp = s.sp := rfl
@[simp] theorem State.setI_dt (s : State) (n : Nat) : (s.setI n).dt = s.dt := rfl
@[simp] theorem State.setI_st (s : State) (n : Nat) : (s.setI n).st = s.st := rfl
@[simp] theorem State.setI_fb (s : State) (n : Nat) : (s.setI n).fb = s.fb := rfl
@[simp] theorem State.setI_keys (s : State) (n : Nat) : (s.setI n).keys = s.keys := rfl
@[simp] theorem State.setI_redraw (s : State) (n : Nat) : (s.setI n).redraw = s.redraw := rfl
@[simp] theorem State.setI_keyWait (s : State) (n : Nat) : (s.setI n).keyWait = s.keyWait := rfl
@[simp] theorem State.setI_latch (s : State) (n : Nat) : (s.setI n).latch = s.latch := rfl
@[simp] theorem State.setI_mem (s : State) (n : Nat) : (s.setI n).mem = s.mem := rfl
@[simp] theorem State.setI_cfg (s : State) (n : Nat) : (s.setI n).cfg = s.cfg := rfl
@[simp] theorem State.setI_draws (s : State) (n : Nat) : (s.setI n).draws = s.draws := rfl
@[simp] theorem State.setI_getV (s : State) (n : Nat) (q : Nibble) : (s.setI n).getV q = s.getV q := rfl
@[simp] theorem State.setI_key (s : State) (n : Nat) (q : Nibble) : (s.setI n).key q = s.key q := rfl
@[simp] theorem State.setI_pixel (s : State) (n : Nat) (px py : Nat) : (s.setI n).pixel px py = s.pixel px py := rfl

@[simp] theorem State.goto_v (s : State) (p : Word) : (s.goto p).v = s.v := rfl
@[simp] theorem State.goto_i (s : State) (p : Word) : (s.goto p).i = s.i := rfl
@[simp] theorem State.goto_pc (s : State) (p : Word) : (s.goto p).pc = p := rfl
@[simp] theorem State.goto_stack (s : State) (p : Word) : (s.goto p).stack = s.stack := rfl
@[simp] theorem State.goto_sp (s : State) (p : Word) : (s.goto p).sp = s.sp := rfl
@[simp] theorem State.goto_dt (s : State) (p : Word) : (s.goto p).dt = s.dt := rfl
@[simp] theorem State.goto_st (s : State) (p : Word) : (s.goto p).st = s.st := rfl
@[simp] theorem State.goto_fb (s : State) (p : Word) : (s.goto p).fb = s.fb := rfl
@[simp] theorem State.goto_keys (s : State) (p : Word) : (s.goto p).keys = s.keys := rfl
@[simp] theorem State.goto_redraw (s : State) (p : Word) : (s.goto p).redraw = s.redraw := rfl
@[simp] theorem State.goto_keyWait (s : State) (p : Word) : (s.goto p).keyWait = none := rfl
@[simp] theorem State.goto_latch (s : State) (p : Word) : (s.goto p).latch = s.latch := rfl
@[simp] theorem State.goto_mem (s : State) (p : Word) : (s.goto p).mem = s.mem := rfl
@[simp] theorem State.goto_cfg (s : State) (p : Word) : (s.goto p).cfg = s.cfg := rfl
@[simp] theorem State.goto_draws (s : State) (p : Word) : (s.goto p).draws = s.draws := rfl
@[simp] theorem State.goto_getV (s : State) (p : Word) (q : Nibble) : (s.goto p).getV q = s.getV q := rfl
@[simp] theorem State.goto_key (s : State) (p : Word) (q : Nibble) : (s.goto p).key q = s.key q := rfl
@[simp] theorem State.goto_pixel (s : State) (p : Word) (px py : Nat) : (s.goto p).pixel px py = s.pixel px py := rfl

@[simp] theorem State.advance_v (s : State) : s.advance.v = s.v := rfl
@[simp] theorem State.advance_i (s : State) : s.advance.i = s.i := rfl
@[simp] theorem State.advance_pc (s : State) : s.advance.pc = s.pc + 2 := rfl
@[simp] theorem State.advance_stack (s : State) : s.advance.stack = s.stack := rfl
@[simp] theorem State.advance_sp (s : State) : s.advance.sp = s.sp := rfl
@[simp] theorem State.advance_dt (s : State) : s.advance.dt = s.dt := rfl
@[simp] theorem State.advance_st (s : State) : s.advance.st = s.st := rfl
@[simp] theorem State.advance_fb (s : State) : s.advance.fb = s.fb := rfl
@[simp] theorem State.advance_keys (s : State) : s.advance.keys = s.keys := rfl
@[simp] theorem State.advance_redraw (s : State) : s.advance.redraw = s.redraw := rfl
@[simp] theorem State.advance_keyWait (s : State) : s.advance.keyWait = none := rfl
@[simp] theorem State.advance_latch (s : State) : s.advance.latch = s.latch := rfl
@[simp] theorem State.advance_mem (s : State) : s.advance.mem = s.mem := rfl
@[simp] theorem State.advance_cfg (s : State) : s.advance.cfg = s.cfg := rfl
@[simp] theorem State.advance_draws (s : State) : s.advance.draws = s.draws := rfl
@[simp] theorem State.advance_getV (s : State) (q : Nibble) : s.advance.getV q = s.getV q := rfl
@[simp] theorem State.advance_key (s : State) (q : Nibble) : s.advance.key q = s.key q := rfl
@[simp] theorem State.advance_pixel (s : State) (px py : Nat) : s.advance.pixel px py = s.pixel px py := rfl

@[simp] theorem State.skipIf_v (s : State) (c : Bool) : (s.skipIf c).v = s.v := rfl
@[simp] theorem State.skipIf_i (s : State) (c : Bool) : (s.skipIf c).i = s.i := rfl
@[simp] theorem State.skipIf_pc (s : State) (c : Bool) : (s.skipIf c).pc = (if c then s.pc + 4 else s.pc + 2) := rfl
@[simp] theorem State.skipIf_stack (s : State) (c : Bool) : (s.skipIf c).stack = s.stack := rfl
@[simp] theorem State.skipIf_sp (s : State) (c : Bool) : (s.skipIf c).sp = s.sp := rfl
@[simp] theorem State.skipIf_dt (s : State) (c : Bool) : (s.skipIf c).dt = s.dt := rfl
@[simp] theorem State.skipIf_st (s : State) (c : Bool) : (s.skipIf c).st = s.st := rfl
@[simp] theorem State.skipIf_fb (s : State) (c : Bool) : (s.skipIf c).fb = s.fb := rfl
@[simp] theorem State.skipIf_keys (s : State) (c : Bool) : (s.skipIf c).keys = s.keys := rfl
@[simp] theorem State.skipIf_redraw (s : State) (c : Bool) : (s.skipIf c).redraw = s.redraw := rfl
@[simp] theorem State.skipIf_keyWait (s : State) (c : Bool) : (s.skipIf c).keyWait = none := rfl
@[simp] theorem State.skipIf_latch (s : State) (c : Bool) : (s.skipIf c).latch = s.latch := rfl
@[simp] theorem State.skipIf_mem (s : State) (c : Bool) : (s.skipIf c).mem = s.mem := rfl
@[simp] theorem State.skipIf_cfg (s : State) (c : Bool) : (s.skipIf c).cfg = s.cfg := rfl
@[simp] theorem State.skipIf_draws (s : State) (c : Bool) : (s.skipIf c).draws = s.draws := rfl
@[simp] theorem State.skipIf_getV (s : State) (c : Bool) (q : Nibble) : (s.skipIf c).getV q = s.getV q := rfl
@[simp] theorem State.skipIf_key (s : State) (c : Bool) (q : Nibble) : (s.skipIf c).key q = s.key q := rfl
@[simp] theorem State.skipIf_pixel (s : State) (c : Bool) (px py : Nat) : (s.skipIf c).pixel px py = s.pixel px py := rfl

@[simp] theorem State.waitKey_v (s : State) (x : Nibble) : (s.waitKey x).v = s.v := rfl
@[simp] theorem State.waitKey_i (s : State) (x : Nibble) : (s.waitKey x).i = s.i := rfl
@[simp] theorem State.waitKey_pc (s : State) (x : Nibble) : (s.waitKey x).pc = s.pc := rfl
@[simp] theorem State.waitKey_stack (s : State) (x : Nibble) : (s.waitKey x).stack = s.stack := rfl
@[simp] theorem State.waitKey_sp (s : State) (x : Nibble) : (s.waitKey x).sp = s.sp := rfl
@[simp] theorem State.waitKey_dt (s : State) (x : Nibble) : (s.waitKey x).dt = s.dt := rfl
@[simp] theorem State.waitKey_st (s : State) (x : Nibble) : (s.waitKey x).st = s.st := rfl
@[simp] theorem State.waitKey_fb (s : State) (x : Nibble) : (s.waitKey x).fb = s.fb := rfl
@[simp] theorem State.waitKey_keys (s : State) (x : Nibble) : (s.waitKey x).keys = s.keys := rfl
@[simp] theorem State.waitKey_redraw (s : State) (x : Nibble) : (s.waitKey x).redraw = s.redraw := rfl
@[simp] theorem State.waitKey_keyWait (s : State) (x : Nibble) : (s.waitKey x).keyWait = some x := rfl
@[simp] theorem State.waitKey_latch (s : State) (x : Nibble) : (s.waitKey x).latch = s.latch := rfl
@[simp] theorem State.waitKey_mem (s : State) (x : Nibble) : (s.waitKey x).mem = s.mem := rfl
@[simp] theorem State.waitKey_cfg (s : State) (x : Nibble) : (s.waitKey x).cfg = s.cfg := rfl
@[simp] theorem State.waitKey_draws (s : State) (x : Nibble) : (s.waitKey x).draws = s.draws := rfl
@[simp] theorem State.waitKey_getV (s : State) (x : Nibble) (q : Nibble) : (s.waitKey x).getV q = s.getV q := rfl
@[simp] theorem State.waitKey_key (s : State) (x : Nibble) (q : Nibble) : (s.waitKey x).key q = s.key q := rfl
@[simp] theorem State.waitKey_pixel (s : State) (x : Nibble) (px py : Nat) : (s.waitKey x).pixel px py = s.pixel px py := rfl

@[simp] theorem State.raise_v (s : State) (e : Fault) (o : Option Word) : (s.raise e o).v = s.v := rfl
@[simp] theorem State.raise_i (s : State) (e : Fault) (o : Option Word) : (s.raise e o).i = s.i := rfl
@[simp] theorem State.raise_pc (s : State) (e : Fault) (o : Option Word) : (s.raise e o).pc = s.pc := rfl
@[simp] theorem State.raise_stack (s : State) (e : Fault) (o : Option Word) : (s.raise e o).stack = s.stack := rfl
@[simp] theorem State.raise_sp (s : State) (e : Fault) (o : Option Word) : (s.raise e o).sp = s.sp := rfl
@[simp] theorem State.raise_dt (s : State) (e : Fault) (o : Option Word) : (s.raise e o).dt = s.dt := rfl
@[simp] theorem State.raise_st (s : State) (e : Fault) (o : Option Word) : (s.raise e o).st = s.st := rfl
@[simp] theorem State.raise_fb (s : State) (e : Fault) (o : Option Word) : (s.raise e o).fb = s.fb := rfl
@[simp] theorem State.raise_keys (s : State) (e : Fault) (o : Option Word) : (s.raise e o).keys = s.keys := rfl
@[simp] theorem State.raise_redraw (s : State) (e : Fault) (o : Option Word) : (s.raise e o).redraw = s.redraw := rfl
@[simp] theorem State.raise_keyWait (s : State) (e : Fault) (o : Option Word) : (s.raise e o).keyWait = s.keyWait := rfl
@[simp] theorem State.raise_latch (s : State) (e : Fault) (o : Option Word) : (s.raise e o).latch = some ⟨e, s.pc, o⟩ := rfl
@[simp] theorem State.raise_mem (s : State) (e : Fault) (o : Option Word) : (s.raise e o).mem = s.mem := rfl
@[simp] theorem State.raise_cfg (s : State) (e : Fault) (o : Option Word) : (s.raise e o).cfg = s.cfg := rfl
@[simp] theorem State.raise_draws (s : State) (e : Fault) (o : Option Word) : (s.raise e o).draws = s.draws := rfl
@[simp] theorem State.raise_getV (s : State) (e : Fault) (o : Option Word) (q : Nibble) : (s.raise e o).getV q = s.getV q := rfl
@[simp] theorem State.raise_key (s : State) (e : Fault) (o : Option Word) (q : Nibble) : (s.raise e o).key q = s.key q := rfl
@[simp] theorem State.raise_pixel (s : State) (e : Fault) (o : Option Word) (px py : Nat) : (s.raise e o).pixel px py = s.pixel px py := rfl

@[simp] theorem State.tick_v (s : State) : s.tick.v = s.v := rfl
@[simp] theorem State.tick_i (s : State) : s.tick.i = s.i := rfl
@[simp] theorem State.tick_pc (s : State) : s.tick.pc = s.pc := rfl
@[simp] theorem State.tick_stack (s : State) : s.tick.stack = s.stack := rfl
@[simp] theorem State.tick_sp (s : State) : s.tick.sp = s.sp := rfl
@[simp] theorem State.tick_dt (s : State) : s.tick.dt = tickDown s.dt := rfl
@[simp] theorem State.tick_st (s : State) : s.tick.st = tickDown s.st := rfl
@[simp] theorem State.tick_fb (s : State) : s.tick.fb = s.fb := rfl
@[simp] theorem State.tick_keys (s : State) : s.tick.keys = s.keys := rfl
@[simp] theorem State.tick_redraw (s : State) : s.tick.redraw = s.redraw := rfl
@[simp] theorem State.tick_keyWait (s : State) : s.tick.keyWait = s.keyWait := rfl
@[simp] theorem State.tick_latch (s : State) : s.tick.latch = s.latch := rfl
@[simp] theorem State.tick_mem (s : State) : s.tick.mem = s.mem := rfl
@[simp] theorem State.tick_cfg (s : State) : s.tick.cfg = s.cfg := rfl
@[simp] theorem State.tick_draws (s : State) : s.tick.draws = s.draws := rfl
@[simp] theorem State.tick_getV (s : State) (q : Nibble) : s.tick.getV q = s.getV q := rfl
@[simp] theorem State.tick_key (s : State) (q : Nibble) : s.tick.key q = s.key q := rfl
@[simp] theorem State.tick_pixel (s : State) (px py : Nat) : s.tick.pixel px py = s.pixel px py := rfl

@[simp] theorem State.setKeyState_v (s : State) (k : Nibble) (p : Bool) : (s.setKeyState k p).v = s.v := rfl
@[simp] theorem State.setKeyState_i (s : State) (k : Nibble) (p : Bool) : (s.setKeyState k p).i = s.i := rfl
@[simp] theorem State.setKeyState_pc (s : State) (k : Nibble) (p : Bool) : (s.setKeyState k p).pc = s.pc := rfl
@[simp] theorem State.setKeyState_stack (s : State) (k : Nibble) (p : Bool) : (s.setKeyState k p).stack = s.stack := rfl
@[simp] theorem State.setKeyState_sp (s : State) (k : Nibble) (p : Bool) : (s.setKeyState k p).sp = s.sp := rfl
@[simp] theorem State.setKeyState_dt (s : State) (k : Nibble) (p : Bool) : (s.setKeyState k p).dt = s.dt := rfl
@[simp] theorem State.setKeyState_st (s : State) (k : Nibble) (p : Bool) : (s.setKeyState k p).st = s.st := rfl
@[simp] theorem State.setKeyState_fb (s : State) (k : Nibble) (p : Bool) : (s.setKeyState k p).fb = s.fb := rfl
@[simp] theorem State.setKeyState_keys (s : State) (k : Nibble) (p : Bool) : (s.setKeyState k p).keys = s.keys.set k.toNat p k.isLt := rfl
@[simp] theorem State.setKeyState_redraw (s : State) (k : Nibble) (p : Bool) : (s.setKeyState k p).redraw = s.redraw := rfl
@[simp] theorem State.setKeyState_keyWait (s : State) (k : Nibble) (p : Bool) : (s.setKeyState k p).keyWait = s.keyWait := rfl
@[simp] theorem State.setKeyState_latch (s : State) (k : Nibble) (p : Bool) : (s.setKeyState k p).latch = s.latch := rfl
@[simp] theorem State.setKeyState_mem (s : State) (k : Nibble) (p : Bool) : (s.setKeyState k p).mem = s.mem := rfl
@[simp] theorem State.setKeyState_cfg (s : State) (k : Nibble) (p : Bool) : (s.setKeyState k p).cfg = s.cfg := rfl
@[simp] theorem State.setKeyState_draws (s : State) (k : Nibble) (p : Bool) : (s.setKeyState k p).draws = s.draws := rfl
@[simp] theorem State.setKeyState_getV (s : State) (k : Nibble) (p : Bool) (q : Nibble) : (s.setKeyState k p).getV q = s.getV q := rfl
@[simp] theorem State.setKeyState_pixel (s : State) (k : Nibble) (p : Bool) (px py : Nat) : (s.setKeyState k p).pixel px py = s.pixel px py := rfl

@[simp] theorem State.consumeRedraw_v (s : State) : s.consumeRedraw.v = s.v := rfl
@[simp] theorem State.consumeRedraw_i (s : State) : s.consumeRedraw.i = s.i := rfl
@[simp] theorem State.consumeRedraw_pc (s : State) : s.consumeRedraw.pc = s.pc := rfl
@[simp] theorem State.consumeRedraw_stack (s : State) : s.consumeRedraw.stack = s.stack := rfl
@[simp] theorem State.consumeRedraw_sp (s : State) : s.consumeRedraw.sp = s.sp := rfl
@[simp] theorem State.consumeRedraw_dt (s : State) : s.consumeRedraw.dt = s.dt := rfl
@[simp] theorem State.consumeRedraw_st (s : State) : s.consumeRedraw.st = s.st := rfl
@[simp] theorem State.consumeRedraw_fb (s : State) : s.consumeRedraw.fb = s.fb := rfl
@[simp] theorem State.consumeRedraw_keys (s : State) : s.consumeRedraw.keys = s.keys := rfl
@[simp] theorem State.consumeRedraw_redraw (s : State) : s.consumeRedraw.redraw = false := rfl
@[simp] theorem State.consumeRedraw_keyWait (s : State) : s.consumeRedraw.keyWait = s.keyWait := rfl
@[simp] theorem State.consumeRedraw_latch (s : State) : s.consumeRedraw.latch = s.latch := rfl
@[simp] theorem State.consumeRedraw_mem (s : State) : s.consumeRedraw.mem = s.mem := rfl
@[simp] theorem State.consumeRedraw_cfg (s : State) : s.consumeRedraw.cfg = s.cfg := rfl
@[simp] theorem State.consumeRedraw_draws (s : State) : s.consumeRedraw.draws = s.draws := rfl
@[simp] theorem State.consumeRedraw_getV (s : State) (q : Nibble) : s.consumeRedraw.getV q = s.getV q := rfl
@[simp] theorem State.consumeRedraw_key (s : State) (q : Nibble) : s.consumeRedraw.key q = s.key q := rfl
@[simp] theorem State.consumeRedraw_pixel (s : State) (px py : Nat) : s.consumeRedraw.pixel px py = s.pixel px py := rfl

@[simp] theorem State.copyProgram_v (s : State) (bs : List Byte) : (s.copyProgram bs).v = s.v := rfl
@[simp] theorem State.copyProgram_i (s : State) (bs : List Byte) : (s.copyProgram bs).i = s.i := rfl
@[simp] theorem State.copyProgram_pc (s : State) (bs : List Byte) : (s.copyProgram bs).pc = s.pc := rfl
@[simp] theorem State.copyProgram_stack (s : State) (bs : List Byte) : (s.copyProgram bs).stack = s.stack := rfl
@[simp] theorem State.copyProgram_sp (s : State) (bs : List Byte) : (s.copyProgram bs).sp = s.sp := rfl
@[simp] theorem State.copyProgram_dt (s : State) (bs : List Byte) : (s.copyProgram bs).dt = s.dt := rfl
@[simp] theorem State.copyProgram_st (s : State) (bs : List Byte) : (s.copyProgram bs).st = s.st := rfl
@[simp] theorem State.copyProgram_fb (s : State) (bs : List Byte) : (s.copyProgram bs).fb = s.fb := rfl
@[simp] theorem State.copyProgram_keys (s : State) (bs : List Byte) : (s.copyProgram bs).keys = s.keys := rfl
@[simp] theorem State.copyProgram_redraw (s : State) (bs : List Byte) : (s.copyProgram bs).redraw = s.redraw := rfl
@[simp] theorem State.copyProgram_keyWait (s : State) (bs : List Byte) : (s.copyProgram bs).keyWait = s.keyWait := rfl
@[simp] theorem State.copyProgram_latch (s : State) (bs : List Byte) : (s.copyProgram bs).latch = s.latch := rfl
@[simp] theorem State.copyProgram_mem (s : State) (bs : List Byte) : (s.copyProgram bs).mem = s.mem.writeBytes programBase bs := rfl
@[simp] theorem State.copyProgram_cfg (s : State) (bs : List Byte) : (s.copyProgram bs).cfg = s.cfg := rfl
@[simp] theorem State.copyProgram_draws (s : State) (bs : List Byte) : (s.copyProgram bs).draws = s.draws := rfl
@[simp] theorem State.copyProgram_getV (s : State) (bs : List Byte) (q : Nibble) : (s.copyProgram bs).getV q = s.getV q := rfl
@[simp] theorem State.copyProgram_key (s : State) (bs : List Byte) (q : Nibble) : (s.copyProgram bs).key q = s.key q := rfl
@[simp] theorem State.copyProgram_pixel (s : State) (bs : List Byte) (px py : Nat) : (s.copyProgram bs).pixel px py = s.pixel px py := rfl

@[simp] theorem State.loadV_v (s : State) (bs : List Byte) : (s.loadV bs).v = Vector.ofFn fun j : Fin 16 => bs.getD j.val s.v[j.val] := rfl
@[simp] theorem State.loadV_i (s : State) (bs : List Byte) : (s.loadV bs).i = s.i := rfl
@[simp] theorem State.loadV_pc (s : State) (bs : List Byte) : (s.loadV bs).pc = s.pc := rfl
@[simp] theorem State.loadV_stack (s : State) (bs : List Byte) : (s.loadV bs).stack = s.stack := rfl
@[simp] theorem State.loadV_sp (s : State) (bs : List Byte) : (s.loadV bs).sp = s.sp := rfl
@[simp] theorem State.loadV_dt (s : State) (bs : List Byte) : (s.loadV bs).dt = s.dt := rfl
@[simp] theorem State.loadV_st (s : State) (bs : List Byte) : (s.loadV bs).st = s.st := rfl
@[simp] theorem State.loadV_fb (s : State) (bs : List Byte) : (s.loadV bs).fb = s.fb := rfl
@[simp] theorem State.loadV_keys (s : State) (bs : List Byte) : (s.loadV bs).keys = s.keys := rfl
@[simp] theorem State.loadV_redraw (s : State) (bs : List Byte) : (s.loadV bs).redraw = s.redraw := rfl
@[simp] theorem State.loadV_keyWait (s : State) (bs : List Byte) : (s.loadV bs).keyWait = s.keyWait := rfl
@[simp] theorem State.loadV_latch (s : State) (bs : List Byte) : (s.loadV bs).latch = s.latch := rfl
@[simp] theorem State.loadV_mem (s : State) (bs : List Byte) : (s.loadV bs).mem = s.mem := rfl
@[simp] theorem State.loadV_cfg (s : State) (bs : List Byte) : (s.loadV bs).cfg = s.cfg := rfl
@[simp] theorem State.loadV_draws (s : State) (bs : List Byte) : (s.loadV bs).draws = s.draws := rfl
@[simp] theorem State.loadV_key (s : State) (bs : List Byte) (q : Nibble) : (s.loadV bs).key q = s.key q := rfl
@[simp] theorem State.loadV_pixel (s : State) (bs : List Byte) (px py : Nat) : (s.loadV bs).pixel px py = s.pixel px py := rfl

/-- Reading a V register after a write of one. -/
@[simp] theorem State.getV_setV (s : State) (r q : Nibble) (b : Byte) : (s.setV r b).getV q = if r = q then b else s.getV q := by
  simp only [State.getV, State.setV, Vector.getElem_set, BitVec.toNat_inj]

/-- Reading a key state after a write of one. -/
@[simp] theorem State.key_setKeyState (s : State) (k q : Nibble) (p : Bool) :
    (s.setKeyState k p).key q = if k = q then p else s.key q := by
  simp only [State.key, State.setKeyState, Vector.getElem_set, BitVec.toNat_inj]

/-- Reading a V register after a block of them is loaded. -/
@[simp] theorem State.getV_loadV (s : State) (bs : List Byte) (q : Nibble) : (s.loadV bs).getV q = bs.getD q.toNat (s.getV q) := by
  simp [State.getV, State.loadV]

@[simp] theorem State.bumpI_v (s : State) (n : Nat) : (s.bumpI n).v = s.v := by
  simp only [State.bumpI]; split <;> rfl
@[simp] theorem State.bumpI_pc (s : State) (n : Nat) : (s.bumpI n).pc = s.pc := by
  simp only [State.bumpI]; split <;> rfl
@[simp] theorem State.bumpI_stack (s : State) (n : Nat) : (s.bumpI n).stack = s.stack := by
  simp only [State.bumpI]; split <;> rfl
@[simp] theorem State.bumpI_sp (s : State) (n : Nat) : (s.bumpI n).sp = s.sp := by
  simp only [State.bumpI]; split <;> rfl
@[simp] theorem State.bumpI_dt (s : State) (n : Nat) : (s.bumpI n).dt = s.dt := by
  simp only [State.bumpI]; split <;> rfl
@[simp] theorem State.bumpI_st (s : State) (n : Nat) : (s.bumpI n).st = s.st := by
  simp only [State.bumpI]; split <;> rfl
@[simp] theorem State.bumpI_fb (s : State) (n : Nat) : (s.bumpI n).fb = s.fb := by
  simp only [State.bumpI]; split <;> rfl
@[simp] theorem State.bumpI_keys (s : State) (n : Nat) : (s.bumpI n).keys = s.keys := by
  simp only [State.bumpI]; split <;> rfl
@[simp] theorem State.bumpI_redraw (s : State) (n : Nat) : (s.bumpI n).redraw = s.redraw := by
  simp only [State.bumpI]; split <;> rfl
@[simp] theorem State.bumpI_keyWait (s : State) (n : Nat) : (s.bumpI n).keyWait = s.keyWait := by
  simp only [State.bumpI]; split <;> rfl
@[simp] theorem State.bumpI_latch (s : State) (n : Nat) : (s.bumpI n).latch = s.latch := by
  simp only [State.bumpI]; split <;> rfl
@[simp] theorem State.bumpI_mem (s : State) (n : Nat) : (s.bumpI n).mem = s.mem := by
  simp only [State.bumpI]; split <;> rfl
@[simp] theorem State.bumpI_cfg (s : State) (n : Nat) : (s.bumpI n).cfg = s.cfg := by
  simp only [State.bumpI]; split <;> rfl
@[simp] theorem State.bumpI_draws (s : State) (n : Nat) : (s.bumpI n).draws = s.draws := by
  simp only [State.bumpI]; split <;> rfl
@[simp] theorem State.bumpI_getV (s : State) (n : Nat) (q : Nibble) : (s.bumpI n).getV q = s.getV q := by
  simp only [State.bumpI]; split <;> rfl
@[simp] theorem State.bumpI_i (s : State) (n : Nat) :
    (s.bumpI n).i = if s.cfg.loadStoreIncrementsI then BitVec.ofNat 16 ((s.i.toNat + n) % 4096) else s.i := by
  simp only [State.bumpI]; split <;> rfl

@[simp] theorem State.writeResultAndFlag_i (s : State) (x : Nibble) (r : Byte) (f : Bool) : (s.writeResultAndFlag x r f).i = s.i := by
  simp only [State.writeResultAndFlag]; split <;> rfl
@[simp] theorem State.writeResultAndFlag_pc (s : State) (x : Nibble) (r : Byte) (f : Bool) : (s.writeResultAndFlag x r f).pc = s.pc := by
  simp only [State.writeResultAndFlag]; split <;> rfl
@[simp] theorem State.writeResultAndFlag_stack (s : State) (x : Nibble) (r : Byte) (f : Bool) : (s.writeResultAndFlag x r f).stack = s.stack := by
  simp only [State.writeResultAndFlag]; split <;> rfl
@[simp] theorem State.writeResultAndFlag_sp (s : State) (x : Nibble) (r : Byte) (f : Bool) : (s.writeResultAndFlag x r f).sp = s.sp := by
  simp only [State.writeResultAndFlag]; split <;> rfl
@[simp] theorem State.writeResultAndFlag_dt (s : State) (x : Nibble) (r : Byte) (f : Bool) : (s.writeResultAndFlag x r f).dt = s.dt := by
  simp only [State.writeResultAndFlag]; split <;> rfl
@[simp] theorem State.writeResultAndFlag_st (s : State) (x : Nibble) (r : Byte) (f : Bool) : (s.writeResultAndFlag x r f).st = s.st := by
  simp only [State.writeResultAndFlag]; split <;> rfl
@[simp] theorem State.writeResultAndFlag_fb (s : State) (x : Nibble) (r : Byte) (f : Bool) : (s.writeResultAndFlag x r f).fb = s.fb := by
  simp only [State.writeResultAndFlag]; split <;> rfl
@[simp] theorem State.writeResultAndFlag_keys (s : State) (x : Nibble) (r : Byte) (f : Bool) : (s.writeResultAndFlag x r f).keys = s.keys := by
  simp only [State.writeResultAndFlag]; split <;> rfl
@[simp] theorem State.writeResultAndFlag_redraw (s : State) (x : Nibble) (r : Byte) (f : Bool) : (s.writeResultAndFlag x r f).redraw = s.redraw := by
  simp only [State.writeResultAndFlag]; split <;> rfl
@[simp] theorem State.writeResultAndFlag_keyWait (s : State) (x : Nibble) (r : Byte) (f : Bool) : (s.writeResultAndFlag x r f).keyWait = s.keyWait := by
  simp only [State.writeResultAndFlag]; split <;> rfl
@[simp] theorem State.writeResultAndFlag_latch (s : State) (x : Nibble) (r : Byte) (f : Bool) : (s.writeResultAndFlag x r f).latch = s.latch := by
  simp only [State.writeResultAndFlag]; split <;> rfl
@[simp] theorem State.writeResultAndFlag_mem (s : State) (x : Nibble) (r : Byte) (f : Bool) : (s.writeResultAndFlag x r f).mem = s.mem := by
  simp only [State.writeResultAndFlag]; split <;> rfl
@[simp] theorem State.writeResultAndFlag_cfg (s : State) (x : Nibble) (r : Byte) (f : Bool) : (s.writeResultAndFlag x r f).cfg = s.cfg := by
  simp only [State.writeResultAndFlag]; split <;> rfl
@[simp] theorem State.writeResultAndFlag_draws (s : State) (x : Nibble) (r : Byte) (f : Bool) : (s.writeResultAndFlag x r f).draws = s.draws := by
  simp only [State.writeResultAndFlag]; split <;> rfl

/-- VF after a result and flag write with the flag last; the result last shows only where x is F (42_alu.md R149). -/
theorem State.writeResultAndFlag_getV (s : State) (x q : Nibble) (r : Byte) (f : Bool) :
    (s.writeResultAndFlag x r f).getV q =
      match s.cfg.vfOrder with
      | .flagLast => if regF = q then flagByte f else if x = q then r else s.getV q
      | .resultLast => if x = q then r else if regF = q then flagByte f else s.getV q := by
  simp only [State.writeResultAndFlag]
  cases s.cfg.vfOrder <;> simp

end Sys2Proof.Machine
end

