-- ==== Sys2Proof/Laws/Ops.lean ====
section
/-! SUPPORT. One lemma per shared operation that says all it can do. -/

namespace Sys2Proof.Machine

/-- An instruction with a check of its own either goes on with what the check gave or raises its error. -/
theorem State.orRaise_eq_next {α : Type} {s t : State} {e : Fault} {i : Instr} {c : Option α} {go : α → State} :
    s.orRaise e i c go = .next t ↔ (∃ a, c = some a ∧ t = go a) ∨ (c = none ∧ t = s.raise e (some (encode i))) := by
  cases c <;> simp [State.orRaise, State.raiseFrom, eq_comm]

@[simp] theorem State.orRaise_some {α : Type} (s : State) (e : Fault) (i : Instr) (a : α) (go : α → State) :
    s.orRaise e i (some a) go = .next (go a) := rfl

@[simp] theorem State.orRaise_none {α : Type} (s : State) (e : Fault) (i : Instr) (go : α → State) :
    s.orRaise e i none go = .next (s.raise e (some (encode i))) := rfl

/-- All a push can do (10_state.md R26). -/
theorem State.push_eq_some {s t : State} {w : Word} :
    s.push w = some t ↔ ∃ h : s.sp.val < 16, t = { s with stack := s.stack.set s.sp.val w h, sp := ⟨s.sp.val + 1, by omega⟩ } := by
  simp only [State.push]; split <;> simp_all [eq_comm]

theorem State.push_eq_none {s : State} {w : Word} : s.push w = none ↔ s.sp = 16 := by
  have := s.sp.isLt
  simp only [State.push, dite_eq_right_iff, reduceCtorEq, imp_false, Fin.ext_iff]
  exact ⟨fun h => by have : s.sp.val = 16 := by omega
                     simpa using this, fun h => by have : s.sp.val = 16 := by simpa using h
                                                   omega⟩

/-- All a pop can do (R26). -/
theorem State.pop_eq_some {s : State} {p : Word × State} :
    s.pop = some p ↔ ∃ h : 0 < s.sp.val, p = (s.stack[s.sp.val - 1]'(by omega), { s with sp := ⟨s.sp.val - 1, by omega⟩ }) := by
  simp only [State.pop]; split <;> simp_all [eq_comm]

theorem State.pop_eq_none {s : State} : s.pop = none ↔ s.sp = 0 := by
  simp only [State.pop, dite_eq_right_iff, reduceCtorEq, imp_false, Fin.ext_iff]
  simp

/-- The fetch runs an instruction exactly when nothing before Execute ends the step (30_encoding.md R72). -/
theorem State.fetch_eq_run {s : State} {i : Instr} :
    s.fetch = .run i ↔ s.latch = none ∧ s.oddPcFault = false ∧ ∃ w, s.fetchWord = some w ∧ decodeWord w = some i := by
  simp only [State.fetch]
  split
  · next h => simp [Option.isSome_iff_ne_none.mp h]
  · next h =>
    have hl : s.latch = none := by simpa using h
    split
    · next ho => simp [ho]
    · next ho =>
      cases hw : s.fetchWord with
      | none => simp
      | some w => cases hd : decodeWord w <;> simp_all

/-- Where the fetch ends the step: a latched error, an odd pc, a pc past 0xFFE, an unsupported opcode (R72, 60_exceptions.md R225). -/
theorem State.fetch_eq_stop {s t : State} :
    s.fetch = .stop t ↔
      (s.latch ≠ none ∧ t = s) ∨
      (s.latch = none ∧ s.oddPcFault = true ∧ t = s.raise .outOfBounds none) ∨
      (s.latch = none ∧ s.oddPcFault = false ∧ s.fetchWord = none ∧ t = s.raise .outOfBounds none) ∨
      (s.latch = none ∧ s.oddPcFault = false ∧
        ∃ w, s.fetchWord = some w ∧ decodeWord w = none ∧ t = s.raise .unsupportedOpcode (some w)) := by
  simp only [State.fetch]
  split
  · next h => simp [Option.isSome_iff_ne_none.mp h, @eq_comm _ t]
  · next h =>
    have hl : s.latch = none := by simpa using h
    split
    · next ho => simp [ho, hl, @eq_comm _ t]
    · next ho =>
      cases hw : s.fetchWord with
      | none => simp_all [@eq_comm _ t]
      | some w => cases hd : decodeWord w <;> simp_all [@eq_comm _ t]

/-- All a step can do: it ends in the fetch, or it is the execution of the instruction fetched. -/
theorem step_eq_next {s t : State} :
    step s = .next t ↔ s.fetch = .stop t ∨ ∃ i, s.fetch = .run i ∧ exec i s = .next t := by
  simp only [step]
  cases s.fetch <;> simp [eq_comm]

/-- A host's step answers the state the step leaves, with the outcome read from it (60_exceptions.md R221). -/
theorem hostCall_step_eq_next {s t : State} {r : CallResult} : hostCall .step s = .next (r, t) ↔ step s = .next t ∧ r = stepReturn t := by
  simp only [hostCall]
  cases step s <;> simp only [Host.Outcome.next.injEq, Prod.mk.injEq, reduceCtorEq, false_and]
  exact ⟨fun ⟨h, h'⟩ => ⟨h', h' ▸ h.symm⟩, fun ⟨h, h'⟩ => ⟨h ▸ h'.symm, h⟩⟩

/-- The three outcomes by the latch and keyWait of the state a step leaves (R72, R221). -/
theorem stepReturn_of_latch {t : State} {l : Latch} (h : t.latch = some l) : stepReturn t = .error l.error := by simp [stepReturn, h]

theorem stepReturn_eq_waiting {t : State} : stepReturn t = .waiting ↔ t.latch = none ∧ t.keyWait ≠ none := by
  cases hl : t.latch <;> cases hk : t.keyWait <;> simp [stepReturn, hl, hk]

theorem stepReturn_eq_ok {t : State} : stepReturn t = .ok ↔ t.latch = none ∧ t.keyWait = none := by
  cases hl : t.latch <;> cases hk : t.keyWait <;> simp [stepReturn, hl, hk]

/-- No fault for an odd pc, in the words of the policy (20_memory.md R55). -/
theorem State.oddPcFault_eq_false {s : State} : s.oddPcFault = false ↔ s.cfg.oddPc = .execute ∨ s.pc.toNat % 2 = 0 := by
  have hb : s.pc.getLsbD 0 = decide (s.pc.toNat % 2 = 1) := by simp [BitVec.getLsbD, Nat.testBit_zero]
  simp only [State.oddPcFault, hb]
  cases s.cfg.oddPc <;> simp

/-- The opcode fetched is the two bytes at pc, and they exist (20_memory.md R54). -/
theorem State.fetchWord_eq_some {s : State} {w : Word} :
    s.fetchWord = some w ↔ s.pc.toNat ≤ 0xFFE ∧ w = s.mem.read s.pc.toNat ++ s.mem.read (s.pc.toNat + 1) := by
  simp only [State.fetchWord]
  split
  · next h => simp [show s.pc.toNat ≤ 0xFFE by omega, eq_comm]
  · next h => simp [show ¬ s.pc.toNat ≤ 0xFFE by omega]

/-- The selected key is a pressed one, and there is none exactly when no key is pressed (44_keys_timers.md R203). -/
theorem State.lowestKey_eq_none {s : State} : s.lowestKey = none ↔ ∀ k, s.key k = false := by
  have hall : ∀ k : Nibble, k ∈ allKeys := by decide
  simp [State.lowestKey, List.find?_eq_none, hall]

theorem State.key_of_selectKey {s : State} {k : Nibble} (h : s.selectKey = some k) : s.key k = true := by
  have hlow : ∀ j, s.lowestKey = some j → s.key j = true := fun j hj => by simpa using List.find?_some hj
  simp only [State.selectKey] at h
  split at h
  · exact hlow k h
  · split at h
    · simp at h
    · split at h <;> simp_all

theorem State.selectKey_eq_none {s : State} : s.selectKey = none ↔ ∀ k, s.key k = false := by
  rw [← State.lowestKey_eq_none]
  simp only [State.selectKey]
  split
  · rfl
  · split
    · simp_all
    · split <;> simp_all

/-- Under the default KeySelect no pressed key is lower than the selected one (R203). -/
theorem State.lowestKey_le {s : State} {k j : Nibble} (h : s.lowestKey = some k) (hj : s.key j = true) : k.toNat ≤ j.toNat := by
  have hall : ∀ i : Nibble, i ∈ allKeys := by decide
  have hsorted : allKeys.Pairwise (fun a b => a.toNat < b.toNat) := by decide
  obtain ⟨_, before, rest, hsplit, hnone⟩ := List.find?_eq_some_iff_append.mp h
  have hmem := hall j
  rw [hsplit] at hsorted hmem
  rcases List.mem_append.mp hmem with hb | hr
  · have := hnone j hb
    simp [hj] at this
  · rcases List.mem_cons.mp hr with rfl | hr
    · exact Nat.le_refl _
    · exact Nat.le_of_lt ((List.pairwise_cons.mp (List.pairwise_append.mp hsorted).2.1).1 j hr)

/-- V0 to Vx are x + 1 bytes, the j-th of them Vj (43_index_memory.md R184). -/
theorem State.length_firstV (s : State) (x : Nibble) : (s.firstV (x.toNat + 1)).length = x.toNat + 1 := by
  have := x.isLt
  simp [State.firstV]
  omega

theorem State.getD_firstV (s : State) (x j : Nibble) (h : j.toNat ≤ x.toNat) : (s.firstV (x.toNat + 1)).getD j.toNat 0 = s.getV j := by
  have hj := j.isLt
  simp [State.firstV, State.getV, List.getD_eq_getElem?_getD, show j.toNat < x.toNat + 1 by omega, hj]

end Sys2Proof.Machine
end

