-- ==== Sys2Proof/Laws/Exec.lean ====
section
/-! SUPPORT. What an executed instruction can do to the status elements, and that a placed opcode is the next one fetched. -/

namespace Sys2Proof.Machine

/-- An instruction leaves the latch as it is, or it raises an error: then the latch is all it writes (60_exceptions.md R222). -/
theorem exec_raises_or_keeps_latch {i : Instr} {s t : State} (h : exec i s = .next t) :
    t.latch = s.latch ∨ ∃ e, e ≠ Fault.programTooLarge ∧ t = s.raise e (some (encode i)) := by
  cases i <;> simp only [exec] at h
  all_goals try simp only [execCls, execJp, execSeImm, execSneImm, execSeReg, execSneReg, execJpV0, execLdImm, execAddImm, execLdReg, execOrReg, execAndReg, execXorReg,
    execAddReg, execSub, execShr, execSubn, execShl, execRnd, execLdI, execAddI, execLdVxDT, execLdDTVx, execLdSTVx] at h
  all_goals try (cases h; left; first | rfl | (simp [State.writeResultAndFlag]; split <;> rfl))
  · rw [execRet, State.orRaise_eq_next] at h
    rcases h with ⟨a, ha, rfl⟩ | ⟨_, rfl⟩
    · obtain ⟨h, rfl⟩ := State.pop_eq_some.mp ha; left; rfl
    · right; exact ⟨_, by decide, rfl⟩
  · rw [execCall, State.orRaise_eq_next] at h
    rcases h with ⟨a, ha, rfl⟩ | ⟨_, rfl⟩
    · obtain ⟨h, rfl⟩ := State.push_eq_some.mp ha; left; rfl
    · right; exact ⟨_, by decide, rfl⟩
  · rw [execDrw, State.orRaise_eq_next] at h
    rcases h with ⟨a, ha, rfl⟩ | ⟨_, rfl⟩
    · left; rfl
    · right; exact ⟨_, by decide, rfl⟩
  · rw [execSkp, State.orRaise_eq_next] at h
    rcases h with ⟨a, ha, rfl⟩ | ⟨_, rfl⟩
    · left; rfl
    · right; exact ⟨_, by decide, rfl⟩
  · rw [execSknp, State.orRaise_eq_next] at h
    rcases h with ⟨a, ha, rfl⟩ | ⟨_, rfl⟩
    · left; rfl
    · right; exact ⟨_, by decide, rfl⟩
  · simp only [execLdVxK] at h; split at h <;> cases h <;> left <;> rfl
  · rw [execLdF, State.orRaise_eq_next] at h
    rcases h with ⟨a, ha, rfl⟩ | ⟨_, rfl⟩
    · left; rfl
    · right; exact ⟨_, by decide, rfl⟩
  · rw [execLdB, State.orRaise_eq_next] at h
    rcases h with ⟨a, ha, rfl⟩ | ⟨_, rfl⟩
    · obtain ⟨h, rfl⟩ := State.memWrite_eq_some.mp ha; left; rfl
    · right; exact ⟨_, by decide, rfl⟩
  · rw [execLdMemStore, State.orRaise_eq_next] at h
    rcases h with ⟨a, ha, rfl⟩ | ⟨_, rfl⟩
    · obtain ⟨h, rfl⟩ := State.memWrite_eq_some.mp ha; left; simp
    · right; exact ⟨_, by decide, rfl⟩
  · rw [execLdMemLoad, State.orRaise_eq_next] at h
    rcases h with ⟨a, ha, rfl⟩ | ⟨_, rfl⟩
    · left; simp
    · right; exact ⟨_, by decide, rfl⟩


/-- An instruction that raises nothing leaves keyWait none, or it is an Fx0A that waits (30_encoding.md R72). -/
theorem exec_clears_keyWait_or_waits {i : Instr} {s t : State} (h : exec i s = .next t) (hl : t.latch = s.latch) (hn : s.latch = none) :
    t.keyWait = none ∨ ∃ x, i = .ldVxK x ∧ s.selectKey = none ∧ t = s.waitKey x := by
  cases i <;> simp only [exec] at h
  all_goals try simp only [execCls, execJp, execSeImm, execSneImm, execSeReg, execSneReg, execJpV0, execLdImm, execAddImm, execLdReg, execOrReg, execAndReg, execXorReg,
    execAddReg, execSub, execShr, execSubn, execShl, execRnd, execLdI, execAddI, execLdVxDT, execLdDTVx, execLdSTVx] at h
  all_goals try (cases h; left; rfl)
  all_goals try (simp only [execRet, execCall, execDrw, execSkp, execSknp, execLdF, execLdB, execLdMemStore, execLdMemLoad] at h
                 rw [State.orRaise_eq_next] at h; rcases h with ⟨a, ha, rfl⟩ | ⟨_, rfl⟩
                 · left; rfl
                 · simp [hn] at hl)
  simp only [execLdVxK] at h
  split at h
  · next hs => cases h; right; exact ⟨_, rfl, hs, rfl⟩
  · cases h; left; rfl

/-- The two bytes of a word, high byte first, make the word. -/
theorem append_bytes (w : Word) : (BitVec.ofNat 8 (w.toNat % 2 ^ 16 / 256) ++ BitVec.ofNat 8 (w.toNat % 2 ^ 16) : Word) = w := by
  have hw := w.isLt
  have hlo := (BitVec.ofNat 8 (w.toNat % 2 ^ 16)).isLt
  apply BitVec.eq_of_toNat_eq
  have h := BitVec.toNat_append (BitVec.ofNat 8 (w.toNat % 2 ^ 16 / 256)) (BitVec.ofNat 8 (w.toNat % 2 ^ 16))
  rw [← Nat.shiftLeft_add_eq_or_of_lt hlo, Nat.shiftLeft_eq, BitVec.toNat_ofNat, BitVec.toNat_ofNat] at h
  refine h.trans ?_
  omega

/-- A supported opcode placed by withFetchWord is what the next step fetches and runs, from every state. -/
theorem State.fetch_withFetchWord (s : State) (w : Word) (i : Instr) (h : decodeWord w = some i) :
    (s.withFetchWord 16 w.toNat).fetch = .run i := by
  have hready : s.readyToFetch.pc.toNat ≤ 0xFFE ∧ s.readyToFetch.oddPcFault = false := by
    simp only [State.readyToFetch]
    split
    · exact ⟨by decide, by simp [State.oddPcFault]⟩
    · next hc =>
      simp only [Bool.or_eq_true, not_or, Bool.not_eq_true, Option.isNone_eq_false_iff, Option.isSome_iff_exists] at hc
      obtain ⟨⟨v, hv⟩, ho⟩ := hc
      exact ⟨(State.fetchWord_eq_some.mp hv).1, ho⟩
  refine State.fetch_eq_run.mpr ⟨rfl, hready.2, w, ?_, h⟩
  refine State.fetchWord_eq_some.mpr ⟨hready.1, ?_⟩
  simp only [State.withFetchWord, State.placeTableWord, tableBytes, Memory.read_writeBytes]
  simp only [List.length_cons, List.length_nil]
  rw [if_pos (by omega), if_pos (by omega)]
  simp only [Nat.sub_self, List.getD_cons_zero, Nat.add_sub_cancel_left, List.getD_cons_succ]
  exact (append_bytes w).symm

end Sys2Proof.Machine
end

