-- ==== Sys2Proof/Laws/PerInstr.lean ====
section
/-! SUPPORT. For every instruction: its opcode has the bits its row of opcode_table.json fixes. -/

namespace Sys2Proof.Laws.Pattern

/-- The mask and match of the instruction's row in opcode_table.json. -/
def row : Instr → Word × Word
  | .cls => (0xFFFF, 0x00E0)
  | .ret => (0xFFFF, 0x00EE)
  | .jp _ => (0xF000, 0x1000)
  | .call _ => (0xF000, 0x2000)
  | .seImm _ _ => (0xF000, 0x3000)
  | .sneImm _ _ => (0xF000, 0x4000)
  | .seReg _ _ => (0xF00F, 0x5000)
  | .ldImm _ _ => (0xF000, 0x6000)
  | .addImm _ _ => (0xF000, 0x7000)
  | .ldReg _ _ => (0xF00F, 0x8000)
  | .orReg _ _ => (0xF00F, 0x8001)
  | .andReg _ _ => (0xF00F, 0x8002)
  | .xorReg _ _ => (0xF00F, 0x8003)
  | .addReg _ _ => (0xF00F, 0x8004)
  | .sub _ _ => (0xF00F, 0x8005)
  | .shr _ _ => (0xF00F, 0x8006)
  | .subn _ _ => (0xF00F, 0x8007)
  | .shl _ _ => (0xF00F, 0x800E)
  | .sneReg _ _ => (0xF00F, 0x9000)
  | .ldI _ => (0xF000, 0xA000)
  | .jpV0 _ => (0xF000, 0xB000)
  | .rnd _ _ => (0xF000, 0xC000)
  | .drw _ _ _ => (0xF000, 0xD000)
  | .skp _ => (0xF0FF, 0xE09E)
  | .sknp _ => (0xF0FF, 0xE0A1)
  | .ldVxDT _ => (0xF0FF, 0xF007)
  | .ldVxK _ => (0xF0FF, 0xF00A)
  | .ldDTVx _ => (0xF0FF, 0xF015)
  | .ldSTVx _ => (0xF0FF, 0xF018)
  | .addI _ => (0xF0FF, 0xF01E)
  | .ldF _ => (0xF0FF, 0xF029)
  | .ldB _ => (0xF0FF, 0xF033)
  | .ldMemStore _ => (0xF0FF, 0xF055)
  | .ldMemLoad _ => (0xF0FF, 0xF065)

/-- The opcode of `i` matches its row. -/
def Statement (i : Instr) : Prop := encode i &&& (row i).1 = (row i).2

/-- Words that agree bit by bit, sixteen bits. -/
theorem word_eq {v w : Word} (h : ∀ j : Fin 16, v.getLsbD j.val = w.getLsbD j.val) : v = w :=
  BitVec.eq_of_getLsbD_eq fun j hj => h ⟨j, hj⟩

theorem nnn_matches (op : Nibble) (a : Addr) : wordNnn op a &&& 0xF000 = wordNnn op 0 := by
  apply word_eq; intro j
  rw [BitVec.getLsbD_and, getLsbD_wordNnn, getLsbD_wordNnn]
  fin_cases j <;> simp

theorem xkk_op_matches (op x : Nibble) (k : Byte) : wordXkk op x k &&& 0xF000 = wordXkk op 0 0 := by
  apply word_eq; intro j
  rw [BitVec.getLsbD_and, getLsbD_wordXkk, getLsbD_wordXkk]
  fin_cases j <;> simp

theorem xkk_low_matches (op x : Nibble) (k : Byte) : wordXkk op x k &&& 0xF0FF = wordXkk op 0 k := by
  apply word_eq; intro j
  rw [BitVec.getLsbD_and, getLsbD_wordXkk, getLsbD_wordXkk]
  fin_cases j <;> simp

theorem xyn_op_matches (op x y n : Nibble) : wordXyn op x y n &&& 0xF000 = wordXyn op 0 0 0 := by
  apply word_eq; intro j
  rw [BitVec.getLsbD_and, getLsbD_wordXyn, getLsbD_wordXyn]
  fin_cases j <;> simp

theorem xyn_low_matches (op x y n : Nibble) : wordXyn op x y n &&& 0xF00F = wordXyn op 0 0 n := by
  apply word_eq; intro j
  rw [BitVec.getLsbD_and, getLsbD_wordXyn, getLsbD_wordXyn]
  fin_cases j <;> simp

theorem cls : Statement .cls := rfl
theorem ret : Statement .ret := rfl
theorem jp (nnn : Addr) : Statement (.jp nnn) := nnn_matches _ nnn
theorem call (nnn : Addr) : Statement (.call nnn) := nnn_matches _ nnn
theorem seImm (x : Nibble) (kk : Byte) : Statement (.seImm x kk) := xkk_op_matches _ x kk
theorem sneImm (x : Nibble) (kk : Byte) : Statement (.sneImm x kk) := xkk_op_matches _ x kk
theorem seReg (x y : Nibble) : Statement (.seReg x y) := xyn_low_matches _ x y _
theorem ldImm (x : Nibble) (kk : Byte) : Statement (.ldImm x kk) := xkk_op_matches _ x kk
theorem addImm (x : Nibble) (kk : Byte) : Statement (.addImm x kk) := xkk_op_matches _ x kk
theorem ldReg (x y : Nibble) : Statement (.ldReg x y) := xyn_low_matches _ x y _
theorem orReg (x y : Nibble) : Statement (.orReg x y) := xyn_low_matches _ x y _
theorem andReg (x y : Nibble) : Statement (.andReg x y) := xyn_low_matches _ x y _
theorem xorReg (x y : Nibble) : Statement (.xorReg x y) := xyn_low_matches _ x y _
theorem addReg (x y : Nibble) : Statement (.addReg x y) := xyn_low_matches _ x y _
theorem sub (x y : Nibble) : Statement (.sub x y) := xyn_low_matches _ x y _
theorem shr (x y : Nibble) : Statement (.shr x y) := xyn_low_matches _ x y _
theorem subn (x y : Nibble) : Statement (.subn x y) := xyn_low_matches _ x y _
theorem shl (x y : Nibble) : Statement (.shl x y) := xyn_low_matches _ x y _
theorem sneReg (x y : Nibble) : Statement (.sneReg x y) := xyn_low_matches _ x y _
theorem ldI (nnn : Addr) : Statement (.ldI nnn) := nnn_matches _ nnn
theorem jpV0 (nnn : Addr) : Statement (.jpV0 nnn) := nnn_matches _ nnn
theorem rnd (x : Nibble) (kk : Byte) : Statement (.rnd x kk) := xkk_op_matches _ x kk
theorem drw (x y n : Nibble) : Statement (.drw x y n) := xyn_op_matches _ x y n
theorem skp (x : Nibble) : Statement (.skp x) := xkk_low_matches _ x _
theorem sknp (x : Nibble) : Statement (.sknp x) := xkk_low_matches _ x _
theorem ldVxDT (x : Nibble) : Statement (.ldVxDT x) := xkk_low_matches _ x _
theorem ldVxK (x : Nibble) : Statement (.ldVxK x) := xkk_low_matches _ x _
theorem ldDTVx (x : Nibble) : Statement (.ldDTVx x) := xkk_low_matches _ x _
theorem ldSTVx (x : Nibble) : Statement (.ldSTVx x) := xkk_low_matches _ x _
theorem addI (x : Nibble) : Statement (.addI x) := xkk_low_matches _ x _
theorem ldF (x : Nibble) : Statement (.ldF x) := xkk_low_matches _ x _
theorem ldB (x : Nibble) : Statement (.ldB x) := xkk_low_matches _ x _
theorem ldMemStore (x : Nibble) : Statement (.ldMemStore x) := xkk_low_matches _ x _
theorem ldMemLoad (x : Nibble) : Statement (.ldMemLoad x) := xkk_low_matches _ x _

end Sys2Proof.Laws.Pattern
end

