-- ==== Sys2Proof/Laws/Sprite.lean ====
section
/-! SUPPORT. What a sprite does to the framebuffer, pixel by pixel (40_display.md R101 to R103). -/

namespace Sys2Proof.Machine

/-- Column `c`, row `r` of a sprite is a set bit of it. -/
def cellOn (rows : List Byte) (c r : Nat) : Bool := decide (c < 8) && decide (r < rows.length) && spriteBit (rows.getD r 0) c

theorem Canvas.flip_bit (cv : Canvas) (p q : Nat) (hp : p < 2048) : (cv.flip p).1.getLsbD q = (cv.1.getLsbD q ^^ decide (q = p)) := by
  simp only [Canvas.flip, BitVec.getLsbD_xor, BitVec.getLsbD_twoPow]
  by_cases h : q = p
  · subst h; simp [hp]
  · simp [h, Ne.symm h]

theorem cellIndex_lt (cx cy c r : Nat) : cellIndex cx cy c r < 2048 := by
  simp only [cellIndex]; have := Nat.mod_lt (cy + r) (show 0 < 32 by decide); have := Nat.mod_lt (cx + c) (show 0 < 64 by decide); omega

/-- A cell lands on a pixel exactly when its column and row are the pixel's distances from the corner (R102). -/
theorem cell_iff (cx cy c r px py : Nat) (hcx : cx < 64) (hcy : cy < 32) (hc : c < 8) (hr : r < 16) (hx : px < 64) (hy : py < 32) :
    py * 64 + px = cellIndex cx cy c r ↔ c = (px + 64 - cx) % 64 ∧ r = (py + 32 - cy) % 32 := by
  simp only [cellIndex]; omega

/-- One row composed: each pixel of its row number is XORed with the bit of its column, and a collision is a lit pixel under a set bit. -/
theorem drawRow_spec (cx cy r : Nat) (row : Byte) (hcx : cx < 64) (hcy : cy < 32) (hr : r < 16) (cols : List Nat) (hcols : ∀ c ∈ cols, c < 8) (hnd : cols.Nodup)
    (cv : Canvas) :
    (∀ px py, px < 64 → py < 32 → (drawRow cx cy r row cols cv).1.getLsbD (py * 64 + px) =
      (cv.1.getLsbD (py * 64 + px) ^^ (decide (r = (py + 32 - cy) % 32) && decide ((px + 64 - cx) % 64 ∈ cols) && spriteBit row ((px + 64 - cx) % 64)))) ∧
    ((drawRow cx cy r row cols cv).2 = true ↔ cv.2 = true ∨ ∃ px py, px < 64 ∧ py < 32 ∧ cv.1.getLsbD (py * 64 + px) = true ∧
      r = (py + 32 - cy) % 32 ∧ (px + 64 - cx) % 64 ∈ cols ∧ spriteBit row ((px + 64 - cx) % 64) = true) := by
  induction cols generalizing cv with
  | nil => simp [drawRow]
  | cons c cols ih =>
    have hc := hcols c (by simp)
    obtain ⟨hn, hnd⟩ := List.nodup_cons.mp hnd
    have ih := ih (fun d hd => hcols d (by simp [hd])) hnd
    simp only [drawRow]
    by_cases hb : spriteBit row c = true
    · rw [if_pos hb]
      obtain ⟨h1, h2⟩ := ih (cv.flip (cellIndex cx cy c r))
      have hflip : ∀ px py, px < 64 → py < 32 → (cv.flip (cellIndex cx cy c r)).1.getLsbD (py * 64 + px) =
          (cv.1.getLsbD (py * 64 + px) ^^ decide (c = (px + 64 - cx) % 64 ∧ r = (py + 32 - cy) % 32)) := by
        intro px py hx hy
        rw [Canvas.flip_bit _ _ _ (cellIndex_lt ..)]
        congr 1; simp only [cell_iff cx cy c r px py hcx hcy hc hr hx hy]
      constructor
      · intro px py hx hy
        rw [h1 px py hx hy, hflip px py hx hy]
        by_cases e1 : r = (py + 32 - cy) % 32 <;> by_cases e2 : c = (px + 64 - cx) % 64
        · have hn2 : (px + 64 - cx) % 64 ∉ cols := by rw [← e2]; exact hn
          have hb2 : spriteBit row ((px + 64 - cx) % 64) = true := by rw [← e2]; exact hb
          simp [← e1, ← e2, hn, hb]
        · simp [← e1, e2, Ne.symm e2]
        · simp [e1]
        · simp [e1]
      · rw [h2]
        have hx0 : ((cx + c) % 64 + 64 - cx) % 64 = c := by omega
        have hy0 : ((cy + r) % 32 + 32 - cy) % 32 = r := by omega
        constructor
        · rintro (h | ⟨px, py, hx, hy, hl, e1, e2, e3⟩)
          · simp only [Canvas.flip, Bool.or_eq_true] at h
            rcases h with h | h
            · exact Or.inl h
            · refine Or.inr ⟨(cx + c) % 64, (cy + r) % 32, by omega, by omega, h, hy0.symm, ?_, ?_⟩
              · rw [hx0]; simp
              · rw [hx0]; exact hb
          · refine Or.inr ⟨px, py, hx, hy, ?_, e1, by simp [e2], e3⟩
            rw [hflip px py hx hy] at hl
            have : c ≠ (px + 64 - cx) % 64 := by rintro rfl; exact hn e2
            simpa [this] using hl
        · rintro (h | ⟨px, py, hx, hy, hl, e1, e2, e3⟩)
          · left; simp [Canvas.flip, h]
          · rcases List.mem_cons.mp e2 with e | e
            · left
              have : cellIndex cx cy c r = py * 64 + px := ((cell_iff cx cy c r px py hcx hcy hc hr hx hy).mpr ⟨e.symm, e1⟩).symm
              simp [Canvas.flip, this, hl]
            · right
              refine ⟨px, py, hx, hy, ?_, e1, e, e3⟩
              rw [hflip px py hx hy]
              have : c ≠ (px + 64 - cx) % 64 := by rintro rfl; exact hn e
              simpa [this] using hl
    · rw [if_neg hb]
      obtain ⟨h1, h2⟩ := ih cv
      constructor
      · intro px py hx hy
        rw [h1 px py hx hy]
        by_cases e2 : (px + 64 - cx) % 64 = c
        · have hb' : spriteBit row ((px + 64 - cx) % 64) = false := by rw [e2]; simpa using hb
          simp [hb']
        · simp [e2]
      · rw [h2]
        constructor
        · rintro (h | ⟨px, py, hx, hy, hl, e1, e2, e3⟩)
          · exact Or.inl h
          · exact Or.inr ⟨px, py, hx, hy, hl, e1, by simp [e2], e3⟩
        · rintro (h | ⟨px, py, hx, hy, hl, e1, e2, e3⟩)
          · exact Or.inl h
          · rcases List.mem_cons.mp e2 with e | e
            · rw [e] at e3; exact absurd e3 hb
            · exact Or.inr ⟨px, py, hx, hy, hl, e1, e, e3⟩

theorem cols8 (k : Nat) (h : k < 64) : k ∈ [0,1,2,3,4,5,6,7] ↔ k < 8 := by simp; omega

/-- All a sprite does to the framebuffer (40_display.md R101, R102): every pixel XORed with the sprite's bit there, and the collision of a lit pixel under
a set bit; the order of the cells is of no account (R103). -/
theorem drawRows_spec (cx cy : Nat) (hcx : cx < 64) (hcy : cy < 32) (rows : List Byte) (r0 : Nat) (hr : r0 + rows.length ≤ 16) (cv : Canvas) :
    (∀ px py, px < 64 → py < 32 → (drawRows cx cy rows r0 cv).1.getLsbD (py * 64 + px) =
      (cv.1.getLsbD (py * 64 + px) ^^ (decide (r0 ≤ (py + 32 - cy) % 32) && cellOn rows ((px + 64 - cx) % 64) ((py + 32 - cy) % 32 - r0)))) ∧
    ((drawRows cx cy rows r0 cv).2 = true ↔ cv.2 = true ∨ ∃ px py, px < 64 ∧ py < 32 ∧ cv.1.getLsbD (py * 64 + px) = true ∧
      r0 ≤ (py + 32 - cy) % 32 ∧ cellOn rows ((px + 64 - cx) % 64) ((py + 32 - cy) % 32 - r0) = true) := by
  induction rows generalizing r0 cv with
  | nil => simp [drawRows, cellOn]
  | cons row rows ih =>
    simp only [List.length_cons] at hr
    simp only [drawRows]
    obtain ⟨h1, h2⟩ := ih (r0 + 1) (by omega) (drawRow cx cy r0 row [0,1,2,3,4,5,6,7] cv)
    obtain ⟨g1, g2⟩ := drawRow_spec cx cy r0 row hcx hcy (by omega) [0,1,2,3,4,5,6,7] (by decide) (by decide) cv
    have key : ∀ px py, px < 64 → py < 32 → (decide (r0 ≤ (py + 32 - cy) % 32) && cellOn (row :: rows) ((px + 64 - cx) % 64) ((py + 32 - cy) % 32 - r0)) =
       ((decide (r0 = (py + 32 - cy) % 32) && decide ((px + 64 - cx) % 64 ∈ [0,1,2,3,4,5,6,7]) && spriteBit row ((px + 64 - cx) % 64)) ^^
        (decide (r0 + 1 ≤ (py + 32 - cy) % 32) && cellOn rows ((px + 64 - cx) % 64) ((py + 32 - cy) % 32 - (r0 + 1)))) := by
      intro px py hx hy
      rw [show decide ((px + 64 - cx) % 64 ∈ [0,1,2,3,4,5,6,7]) = decide ((px + 64 - cx) % 64 < 8) by
        simp only [decide_eq_decide]; exact cols8 _ (by omega)]
      generalize (px + 64 - cx) % 64 = C
      generalize (py + 32 - cy) % 32 = R
      rcases Nat.lt_trichotomy R r0 with h | h | h
      · simp [show ¬ r0 ≤ R by omega, show ¬ r0 = R by omega, show ¬ r0 + 1 ≤ R by omega]
      · subst h; simp [cellOn, show ¬ R + 1 ≤ R by omega]
      · obtain ⟨d, hd⟩ : ∃ d, R - r0 = d + 1 := ⟨R - r0 - 1, by omega⟩
        simp [cellOn, hd, show r0 ≤ R by omega, show ¬ r0 = R by omega, show r0 + 1 ≤ R by omega, show R - (r0 + 1) = d by omega]
    constructor
    · intro px py hx hy
      rw [h1 px py hx hy, g1 px py hx hy, key px py hx hy]
      simp only [Bool.xor_assoc]
    · rw [h2, g2]
      constructor
      · rintro ((h | ⟨px, py, hx, hy, hl, e1, e2, e3⟩) | ⟨px, py, hx, hy, hl, e1, e2⟩)
        · exact Or.inl h
        · refine Or.inr ⟨px, py, hx, hy, hl, by omega, ?_⟩
          have := key px py hx hy
          rw [← e1] at this ⊢
          simp [e2, e3, show ¬ r0 + 1 ≤ r0 by omega] at this
          simpa [e1] using this
        · rw [g1 px py hx hy] at hl
          refine Or.inr ⟨px, py, hx, hy, ?_, by omega, ?_⟩
          · simpa [show ¬ r0 = (py + 32 - cy) % 32 by omega] using hl
          · have := key px py hx hy
            simp [e1, e2, show r0 ≤ (py + 32 - cy) % 32 by omega, show ¬ r0 = (py + 32 - cy) % 32 by omega] at this
            exact this
      · rintro (h | ⟨px, py, hx, hy, hl, e1, e2⟩)
        · exact Or.inl (Or.inl h)
        · have := key px py hx hy
          simp only [e1, e2, decide_true, Bool.and_self] at this
          by_cases e : r0 = (py + 32 - cy) % 32
          · left; right
            refine ⟨px, py, hx, hy, hl, e, ?_⟩
            simp [← e, show ¬ r0 + 1 ≤ r0 by omega] at this
            simpa using this
          · right
            have h' : r0 + 1 ≤ (py + 32 - cy) % 32 := by omega
            refine ⟨px, py, hx, hy, ?_, h', ?_⟩
            · rw [g1 px py hx hy]; simp [e, hl]
            · simp [e, h'] at this; exact this

end Sys2Proof.Machine
end

