-- ==== Sys2Proof/Tests/Slice0.lean ====
section
/-! SUPPORT. Named tests by decide. Expected results are hand-worked vectors of 95_test_vectors.md (S, V and P numbers) or of the rule named; the witnesses
at the end show that the hypotheses of the statements can be met. -/

namespace Sys2Proof.Tests

open Sys2Proof.Machine

/-! ### Well-formedness: an ill-formed term for each check -/

/-- V104: 3585 bytes do not fit, V103: 3584 do. -/
theorem test_programFits_refuses_3585 : programFits (List.replicate 3585 0) = false := by rw [programFits, List.length_replicate]; decide
theorem test_programFits_takes_3584 : programFits (List.replicate 3584 0) = true := by rw [programFits, List.length_replicate]; decide

/-- V101: key 16 is refused, V102: key 15 is taken. -/
theorem test_keyNumberValid_refuses_16 : keyNumberValid 16 = false := by decide
theorem test_keyNumberValid_takes_15 : keyNumberValid 15 = true := by decide

/-! ### Decoding: a word written out from the pattern of each instruction (opcode_table.json, 30_encoding.md R75 to R79) -/

theorem test_decode_cls : decodeWord 0b0000000011100000 = some (.cls) := by decide
theorem test_decode_ret : decodeWord 0b0000000011101110 = some (.ret) := by decide
theorem test_decode_jp : decodeWord 0b0001101010111100 = some (.jp 0xABC) := by decide
theorem test_decode_call : decodeWord 0b0010001000001000 = some (.call 0x208) := by decide
theorem test_decode_seImm : decodeWord 0b0011001101000010 = some (.seImm 0x3 0x42) := by decide
theorem test_decode_sneImm : decodeWord 0b0100001101000001 = some (.sneImm 0x3 0x41) := by decide
theorem test_decode_seReg : decodeWord 0b0101000100100000 = some (.seReg 0x1 0x2) := by decide
theorem test_decode_ldImm : decodeWord 0b0110101000111100 = some (.ldImm 0xA 0x3C) := by decide
theorem test_decode_addImm : decodeWord 0b0111000000000001 = some (.addImm 0x0 0x01) := by decide
theorem test_decode_ldReg : decodeWord 0b1000000100100000 = some (.ldReg 0x1 0x2) := by decide
theorem test_decode_orReg : decodeWord 0b1000000100100001 = some (.orReg 0x1 0x2) := by decide
theorem test_decode_andReg : decodeWord 0b1000000100100010 = some (.andReg 0x1 0x2) := by decide
theorem test_decode_xorReg : decodeWord 0b1000000100100011 = some (.xorReg 0x1 0x2) := by decide
theorem test_decode_addReg : decodeWord 0b1000000000010100 = some (.addReg 0x0 0x1) := by decide
theorem test_decode_sub : decodeWord 0b1000001000010101 = some (.sub 0x2 0x1) := by decide
theorem test_decode_shr : decodeWord 0b1000001000000110 = some (.shr 0x2 0x0) := by decide
theorem test_decode_subn : decodeWord 0b1000000100000111 = some (.subn 0x1 0x0) := by decide
theorem test_decode_shl : decodeWord 0b1000001000001110 = some (.shl 0x2 0x0) := by decide
theorem test_decode_sneReg : decodeWord 0b1001000100100000 = some (.sneReg 0x1 0x2) := by decide
theorem test_decode_ldI : decodeWord 0b1010001100000000 = some (.ldI 0x300) := by decide
theorem test_decode_jpV0 : decodeWord 0b1011111111111111 = some (.jpV0 0xFFF) := by decide
theorem test_decode_rnd : decodeWord 0b1100001100001111 = some (.rnd 0x3 0x0F) := by decide
theorem test_decode_drw : decodeWord 0b1101000000010010 = some (.drw 0x0 0x1 0x2) := by decide
theorem test_decode_skp : decodeWord 0b1110000110011110 = some (.skp 0x1) := by decide
theorem test_decode_sknp : decodeWord 0b1110000110100001 = some (.sknp 0x1) := by decide
theorem test_decode_ldVxDT : decodeWord 0b1111001100000111 = some (.ldVxDT 0x3) := by decide
theorem test_decode_ldVxK : decodeWord 0b1111010100001010 = some (.ldVxK 0x5) := by decide
theorem test_decode_ldDTVx : decodeWord 0b1111000000010101 = some (.ldDTVx 0x0) := by decide
theorem test_decode_ldSTVx : decodeWord 0b1111001000011000 = some (.ldSTVx 0x2) := by decide
theorem test_decode_addI : decodeWord 0b1111010000011110 = some (.addI 0x4) := by decide
theorem test_decode_ldF : decodeWord 0b1111101000101001 = some (.ldF 0xA) := by decide
theorem test_decode_ldB : decodeWord 0b1111010100110011 = some (.ldB 0x5) := by decide
theorem test_decode_ldMemStore : decodeWord 0b1111001001010101 = some (.ldMemStore 0x2) := by decide
theorem test_decode_ldMemLoad : decodeWord 0b1111001001100101 = some (.ldMemLoad 0x2) := by decide

/-- V6 to V9: words the families leave unmatched. -/
theorem test_decode_unsupported :
    [0x0000, 0x0123, 0x00E1, 0x00FF, 0x0FFF, 0x5011, 0x501F, 0x9011, 0x901F, 0x8008, 0x8009, 0x800A, 0x800B, 0x800C, 0x800D, 0x800F,
      0xE09F, 0xE0A2, 0xE000, 0xF000, 0xF008, 0xF0FF, 0xF066].all (fun w => decodeWord w == none) = true := by decide

/-- R54: the first byte is the high one, and a lone byte is no instruction (R82). -/
theorem test_decodeBytes : decodeBytes [0x60, 0x05, 0xF0] = .ok (.ldImm 0x0 0x05, [0xF0]) ∧ decodeBytes [0x60] = .error .truncated := by
  exact ⟨rfl, rfl⟩

/-- The opcode-table numbering: one 16-bit word. -/
theorem test_decodeTableWord : decodeTableWord 16 0xD125 = some (.drw 0x1 0x2 0x5) ∧ decodeTableWord 16 0x00EE = some .ret := by decide

/-! ### One step from a small state -/

/-- Reset with the registers of a list set. -/
def withV (l : List (Nibble × Byte)) : State := l.foldl (fun s p => s.setV p.1 p.2) State.reset

/-- Reset with the bytes of a list at an address, and I there. -/
def withBytes (a : Nat) (bs : List Byte) : State := { (State.reset.setI a) with mem := Memory.writeBytes [] a bs }

/-- The state after one step that executes the opcode `w` from `s`. -/
def after (s : State) (w : Nat) : State :=
  match step (s.withFetchWord 16 w) with
  | .next t => t
  | _ => s

/-- The lit pixels of a state are exactly those of a list of flat indices. -/
def litIs (s : State) (l : List Nat) : Bool := s.fb == l.foldl (fun fb p => fb ||| BitVec.twoPow 2048 p) 0

/-- Reset with the pixels of a list on. -/
def withLit (l : List Nat) : State := { State.reset with fb := l.foldl (fun fb p => fb ||| BitVec.twoPow 2048 p) 0 }

/-- V13. -/
theorem test_cls_clears :
    let t := after (withLit [5, 64]) 0x00E0
    litIs t [] = true ∧ t.redraw = true ∧ t.pc = 0x202 := by decide +kernel

/-- V30. -/
theorem test_ret_pops :
    let t := after { State.reset with sp := 1, stack := State.reset.stack.set 0 0x202, pc := 0x400 } 0x00EE
    t.pc = 0x202 ∧ t.sp = 0 := by decide

/-- V31. -/
theorem test_ret_underflow :
    (after State.reset 0x00EE).latch = some ⟨.stackUnderflow, 0x200, some 0x00EE⟩ := by decide

/-- V25. -/
theorem test_jp :
    (after State.reset 0x1ABC).pc = 0xABC := by decide

/-- V28. -/
theorem test_call_pushes_pc_plus_2 :
    let t := after { State.reset with sp := 15 } 0x2400
    t.pc = 0x400 ∧ t.sp = 16 ∧ t.stack[15] = 0x202 := by decide

/-- V29. -/
theorem test_call_overflow :
    let t := after { State.reset with sp := 16 } 0x2400
    t.latch = some ⟨.stackOverflow, 0x200, some 0x2400⟩ ∧ t.sp = 16 ∧ t.pc = 0x200 := by decide

/-- V32. -/
theorem test_seImm :
    (after (withV [(0, 0x12)]) 0x3012).pc = 0x204 ∧ (after (withV [(0, 0x12)]) 0x3013).pc = 0x202 := by decide

/-- V33. -/
theorem test_sneImm :
    (after (withV [(0, 0x12)]) 0x4012).pc = 0x202 ∧ (after (withV [(0, 0x12)]) 0x4013).pc = 0x204 := by decide

/-- V34, V35. -/
theorem test_seReg :
    (after (withV [(0, 7), (1, 7)]) 0x5010).pc = 0x204 ∧ (after (withV [(0, 7), (1, 8)]) 0x5010).pc = 0x202 := by decide

/-- V34, V35. -/
theorem test_sneReg :
    (after (withV [(0, 7), (1, 7)]) 0x9010).pc = 0x202 ∧ (after (withV [(0, 7), (1, 8)]) 0x9010).pc = 0x204 := by decide

/-- V38. -/
theorem test_jpV0_does_not_wrap :
    (after (withV [(0, 0xFF)]) 0xBFFF).pc = 0x10FE := by decide

/-- V41. -/
theorem test_ldImm :
    (after State.reset 0x6A42).getV 0xA = 0x42 := by decide

/-- V42. -/
theorem test_addImm_leaves_VF :
    let t := after (withV [(0, 0xFF), (0xF, 0x55)]) 0x7001
    t.getV 0 = 0x00 ∧ t.getV 0xF = 0x55 := by decide

/-- V43. -/
theorem test_ldReg :
    (after (withV [(1, 0x07)]) 0x8010).getV 0 = 0x07 := by decide

/-- V44. -/
theorem test_orReg_leaves_VF :
    let t := after (withV [(0, 0xF0), (1, 0x0F), (0xF, 0x22)]) 0x8011
    t.getV 0 = 0xFF ∧ t.getV 0xF = 0x22 := by decide

/-- V45. -/
theorem test_andReg :
    (after (withV [(0, 0xF0), (1, 0x3C)]) 0x8012).getV 0 = 0x30 := by decide

/-- V46. -/
theorem test_xorReg :
    (after (withV [(0, 0xF0), (1, 0x3C)]) 0x8013).getV 0 = 0xCC := by decide

/-- V51. -/
theorem test_addReg_carry_with_y_F :
    let t := after (withV [(0, 0xFF), (0xF, 0x01)]) 0x80F4
    t.getV 0 = 0x00 ∧ t.getV 0xF = 1 := by decide

/-- V52. -/
theorem test_addReg_x_F_both_orders :
    let s := withV [(0xF, 0x10), (0, 0x20)]
    (after s 0x8F04).getV 0xF = 0x00 ∧
    (after { s with cfg := { Config.default with vfOrder := .resultLast } } 0x8F04).getV 0xF = 0x30 := by decide

/-- V54, V55. -/
theorem test_sub_borrow :
    let t := after (withV [(1, 0x01)]) 0x8015
    let u := after (withV [(0, 0x10), (1, 0x01)]) 0x8015
    t.getV 0 = 0xFF ∧ t.getV 0xF = 0 ∧ u.getV 0 = 0x0F ∧ u.getV 0xF = 1 := by decide

/-- V57, V59. -/
theorem test_shr_ignores_Vy :
    let t := after (withV [(0, 0x01)]) 0x8006
    let u := after (withV [(0, 0x04), (1, 0xFF)]) 0x8016
    t.getV 0 = 0x00 ∧ t.getV 0xF = 1 ∧ u.getV 0 = 0x02 ∧ u.getV 0xF = 0 := by decide

/-- V61, V63. -/
theorem test_subn :
    let t := after (withV [(1, 0x01)]) 0x8107
    let u := after (withV [(0, 0x10), (1, 0x30)]) 0x8017
    t.getV 1 = 0xFF ∧ t.getV 0xF = 0 ∧ u.getV 0 = 0x20 ∧ u.getV 0xF = 1 := by decide

/-- V64, V65. -/
theorem test_shl_ignores_Vy :
    let t := after (withV [(0, 0x81)]) 0x800E
    let u := after (withV [(0, 0x40), (1, 0x01)]) 0x801E
    t.getV 0 = 0x02 ∧ t.getV 0xF = 1 ∧ u.getV 0 = 0x80 ∧ u.getV 0xF = 0 := by decide

/-- V70. -/
theorem test_ldI :
    (after State.reset 0xA123).i = 0x123 := by decide

/-- V15. -/
theorem test_drw_draws_font_5 :
    let t := after ((withV [(0, 5)]).setI 0x069) 0xD005
    litIs t [325, 326, 327, 328, 389, 453, 454, 455, 456, 520, 581, 582, 583, 584] = true ∧ t.getV 0xF = 0 ∧ t.redraw = true := by decide +kernel

/-- V20. -/
theorem test_drw_wraps_both_ways :
    let s := withBytes 0x300 [0xFF, 0x81]
    let t := after ((s.setV 0 0x3E).setV 1 0x1F) 0xD012
    litIs t [5, 62, 1984, 1985, 1986, 1987, 1988, 1989, 2046, 2047] = true ∧ t.getV 0xF = 0 := by decide +kernel

/-- V88, V89. -/
theorem test_skp :
    let s := withV [(1, 7)]
    (after (s.setKeyState 7 true) 0xE19E).pc = 0x204 ∧ (after s 0xE19E).pc = 0x202 := by decide

/-- V92. -/
theorem test_skp_invalid_key :
    (after (withV [(1, 0x10)]) 0xE19E).latch = some ⟨.invalidKey, 0x200, some 0xE19E⟩ := by decide

/-- V90, V91. -/
theorem test_sknp :
    let s := withV [(1, 7)]
    (after s 0xE1A1).pc = 0x204 ∧ (after (s.setKeyState 7 true) 0xE1A1).pc = 0x202 := by decide

/-- V93. -/
theorem test_ldVxDT :
    (after { State.reset with dt := 0x3C } 0xF007).getV 0 = 0x3C := by decide

/-- V94. -/
theorem test_ldVxK_waits :
    let t := after State.reset 0xF50A
    t.pc = 0x200 ∧ t.keyWait = some 5 ∧ t.getV 5 = 0 := by decide

/-- V95. -/
theorem test_ldVxK_takes_the_lowest :
    let t := after ((State.reset.setKeyState 9 true).setKeyState 2 true) 0xF50A
    t.getV 5 = 2 ∧ t.pc = 0x202 ∧ t.keyWait = none := by decide

/-- V97. -/
theorem test_ldDTVx :
    (after (withV [(0, 3)]) 0xF015).dt = 3 := by decide

/-- V98. -/
theorem test_ldSTVx :
    (after (withV [(2, 0x10)]) 0xF218).st = 0x10 := by decide

/-- V71. -/
theorem test_addI_wraps :
    let t := after ((withV [(0, 0x01), (0xF, 0x77)]).setI 0xFFF) 0xF01E
    t.i = 0x000 ∧ t.getV 0xF = 0x77 := by decide

/-- V74. -/
theorem test_ldF_policies :
    let s := withV [(0, 0x10)]
    (after s 0xF029).i = 0x0A0 ∧ (after { s with cfg := { Config.default with fontIndex := .lowNibble } } 0xF029).i = 0x050 ∧
    (after { s with cfg := { Config.default with fontIndex := .fault } } 0xF029).latch = some ⟨.outOfBounds, 0x200, some 0xF029⟩ := by decide

/-- S6. -/
theorem test_ldB_digits :
    let t := after ((withV [(5, 234)]).setI 0x300) 0xF533
    t.mem.readBytes 0x300 3 = [2, 3, 4] ∧ t.i = 0x300 := by decide

/-- V78. -/
theorem test_ldB_out_of_bounds :
    let t := after (State.reset.setI 0xFFE) 0xF033
    t.latch = some ⟨.outOfBounds, 0x200, some 0xF033⟩ ∧ t.mem.readBytes 0xFFE 2 = [0, 0] := by decide

/-- V79. -/
theorem test_ldMemStore :
    let s := (withV [(0, 1), (1, 2), (2, 3)]).setI 0x400
    (after s 0xF255).mem.readBytes 0x400 4 = [1, 2, 3, 0] ∧ (after s 0xF255).i = 0x400 ∧
    (after { s with cfg := { Config.default with loadStoreIncrementsI := true } } 0xF255).i = 0x403 := by decide

/-- V81. -/
theorem test_ldMemStore_out_of_bounds :
    (after ((withV [(0, 0xAA)]).setI 0xFFE) 0xF255).latch = some ⟨.outOfBounds, 0x200, some 0xF255⟩ := by decide

/-- V84. -/
theorem test_ldMemLoad :
    let t := after (withBytes 0x300 [0, 1, 5]) 0xF265
    t.getV 0 = 0 ∧ t.getV 1 = 1 ∧ t.getV 2 = 5 ∧ t.i = 0x300 := by decide

/-- V87. -/
theorem test_ldMemLoad_reads_the_font :
    (after (State.reset.setI 0x050) 0xF065).getV 0 = 0xF0 := by decide

/-- V68: with mask 0 the random byte is of no account; and the draw is counted (R161). -/
theorem test_rnd_masked : (after State.reset 0xC300).getV 3 = 0 ∧ (after State.reset 0xC300).draws = 1 :=
  ⟨by show Config.randomByte 0 &&& 0 = 0; simp, rfl⟩

/-! ### The step cycle and the host operations -/

/-- V1 and V2: the last fetchable pc, and one past it. -/
theorem test_fetch_edge :
    (after { State.reset with pc := 0xFFE } 0x602A).pc = 0x1000 ∧
    (match step { State.reset with pc := 0xFFF } with | .next t => t.latch | _ => none) = some ⟨.outOfBounds, 0xFFF, none⟩ := by decide

/-- V4 and V5: an odd pc under both policies. -/
theorem test_odd_pc :
    (after { State.reset with pc := 0x203 } 0x6007).pc = 0x205 ∧
    (match step { State.reset with pc := 0x203, cfg := { Config.default with oddPc := .fault } } with | .next t => t.latch | _ => none) =
      some ⟨.outOfBounds, 0x203, none⟩ := by decide

/-- V6: reset memory holds the unsupported opcode 0000 at 0x200. -/
theorem test_unsupported_opcode :
    (match step State.reset with | .next t => t.latch | _ => none) = some ⟨.unsupportedOpcode, 0x200, some 0x0000⟩ := by decide

/-- The table of R220. -/
theorem test_errorCode :
    [Fault.outOfBounds, .stackOverflow, .stackUnderflow, .unsupportedOpcode, .programTooLarge, .invalidKey].map errorCode = [1, 2, 3, 4, 5, 6] := by decide

/-- V99 and V100. -/
theorem test_tick :
    let t := { State.reset with dt := 2, st := 5 }.tick
    let u := { State.reset with st := 1 }.tick.tick
    t.dt = 1 ∧ t.st = 4 ∧ u.dt = 0 ∧ u.st = 0 := by decide

/-- V101: setKey(16, true). -/
theorem test_setKey_16 : (State.reset.setKey 16 true).1 = .error .invalidKey ∧ (State.reset.setKey 15 true).2.key 15 = true := by decide

/-- R236: the first byte goes to 0x200. -/
theorem test_load : ((State.reset.load [0x60, 0x05]).2.mem.readBytes 0x200 3) = [0x60, 0x05, 0x00] := by decide

/-- V12: reset() clears the latch; the default font is what reset memory reads (R64: glyph F at 0x09B). -/
theorem test_hostReset :
    ({ State.reset with latch := some ⟨.stackOverflow, 0x200, none⟩, pc := 0x300 } : State).hostReset.pc = 0x200 ∧
    State.reset.hostReset.mem = [] ∧ State.reset.mem.readBytes 0x09B 6 = [0xF0, 0x80, 0xF0, 0x80, 0x80, 0x00] := by decide +kernel

/-- Entry 24: a sprite that covers lit pixels only clears them on the first draw, so the second draw turns nothing off: VF is 1, then 0, though the sprite
has a set bit (R101 against the last sentence of R103). -/
theorem test_second_draw_over_lit_pixels :
    let s := { withBytes 0x300 [0x80] with fb := 1 }
    let t := after s 0xD001
    let u := after { t with pc := 0x200 } 0xD001
    t.getV 0xF = 1 ∧ u.getV 0xF = 0 ∧ u.fb = s.fb := by decide +kernel

/-! ### Witnesses: for each statement with hypotheses, a state and operands that meet them together, each clause at a boundary value -/

/-- An opcode placed at 0x200 of the reset state. -/
def placed (w : Nat) : State := State.reset.withFetchWord 16 w

/-- One lit pixel, at (0, 0), and a sprite of one row with its leftmost bit set, at I = 0x300. -/
def oneLit : State := { withBytes 0x300 [0x80] with fb := 1 }

theorem witness_DecodedWordsEncodeBack : decodeWord 0xFF65 = some (.ldMemLoad 0xF) ∧ decodeWord 0x00E0 = some .cls := by decide

theorem witness_StepRunsTheDecodedInstruction :
    let s := placed 0x6005
    let u := ({ State.reset with pc := 0xFFE, cfg := { Config.default with oddPc := .fault } } : State).withFetchWord 16 0x6005
    (s.latch = none ∧ (s.cfg.oddPc = .execute ∨ s.pc.toNat % 2 = 0) ∧ s.pc.toNat ≤ 0xFFE ∧
      decodeWord (s.mem.read s.pc.toNat ++ s.mem.read (s.pc.toNat + 1)) = some (.ldImm 0 5)) ∧
    (u.latch = none ∧ u.pc.toNat % 2 = 0 ∧ u.pc.toNat = 0xFFE ∧ u.cfg.oddPc = .fault ∧
      decodeWord (u.mem.read u.pc.toNat ++ u.mem.read (u.pc.toNat + 1)) = some (.ldImm 0 5)) := by decide

theorem witness_FetchIsBigEndianAndBounded :
    let s := { State.reset with pc := 0xFFF }
    (State.reset.fetchWord = some 0x0000 ∧ ({ State.reset with pc := 0xFFE } : State).fetchWord.isSome = true) ∧
    s.latch = none ∧ 0xFFE < s.pc.toNat := by decide

theorem witness_OddPcAndUnsupportedOpcodeAreLatched :
    let s := { State.reset with pc := 0x203, cfg := { Config.default with oddPc := .fault } }
    let u := { State.reset with pc := 0xFFE }
    (s.latch = none ∧ s.cfg.oddPc = .fault ∧ s.pc.toNat % 2 = 1) ∧
    (u.latch = none ∧ (u.cfg.oddPc = .execute ∨ u.pc.toNat % 2 = 0) ∧ u.fetchWord = some 0x0000 ∧ decodeWord 0x0000 = none) := by decide

theorem witness_LatchedStepReturnsTheErrorAndChangesNothing :
    ({ placed 0x6005 with latch := some ⟨.invalidKey, 0x200, some 0xE19E⟩ } : State).latch = some ⟨.invalidKey, 0x200, some 0xE19E⟩ := rfl

/-- An unsupported opcode, a fetch error, and an error of the instruction itself. -/
theorem witness_ErrorStepWritesOnlyTheLatch :
    (State.reset.latch = none ∧ ∃ t, step State.reset = .next t ∧ t.latch ≠ none) ∧
    (∃ t, step { State.reset with pc := 0xFFF } = .next t ∧ t.latch ≠ none) ∧
    (∃ t, step (placed 0x00EE) = .next t ∧ t.latch ≠ none) :=
  ⟨⟨rfl, _, rfl, by decide⟩, ⟨_, rfl, by decide⟩, ⟨_, rfl, by decide⟩⟩

/-- The three clauses: a step that waits, the state it waits in, and a state in which an instruction completes (an Fx0A with a key pressed among them). -/
theorem witness_WaitingMeansFx0AWithNoKey :
    let s := placed 0xF50A
    let u := s.setKeyState 0xF true
    (∃ t, hostCall .step s = .next (.waiting, t)) ∧
    (s.latch = none ∧ s.cfg.oddPc = .execute ∧ s.fetchWord = some 0xF50A ∧ decodeWord 0xF50A = some (.ldVxK 5) ∧ ∀ k, s.key k = false) ∧
    (u.latch = none ∧ u.cfg.oddPc = .execute ∧ u.fetchWord = some 0xF50A ∧ (∃ t, exec (.ldVxK 5) u = .next t ∧ t.latch = none) ∧ ∃ k, u.key k = true) ∧
    (∃ t, exec (.ldImm 0 5) (placed 0x6005) = .next t ∧ t.latch = none ∧ ∀ x, Instr.ldImm 0 5 ≠ .ldVxK x) :=
  ⟨⟨_, rfl⟩, by decide, ⟨rfl, rfl, by decide, ⟨_, rfl, rfl⟩, 0xF, by decide⟩, ⟨_, rfl, rfl, nofun⟩⟩

/-- n = 0 with I at the top of memory, a sprite whose last row is at 0xFFF, and both collision clauses. -/
theorem witness_DrawXorsTheSpritePixelByPixel :
    ((0 : Nibble) = 0 ∨ (State.reset.setI 0xFFF).i.toNat + (0 : Nibble).toNat ≤ 0x1000) ∧
    (State.reset.setI 0xFF1).i.toNat + (0xF : Nibble).toNat = 0x1000 ∧
    (∃ px py, px < 64 ∧ py < 32 ∧ oneLit.pixel px py = true ∧ spriteCovers oneLit 0 0 1 px py = true) ∧
    (∀ px py, px < 64 → py < 32 → State.reset.pixel px py = true → spriteCovers State.reset 0 0 1 px py = false) :=
  ⟨.inl rfl, by decide, ⟨0, 0, by decide +kernel⟩, fun _ _ _ _ h => by simp [State.pixel, State.reset] at h⟩

theorem witness_DrawPastMemoryRaises : (1 : Nibble) ≠ 0 ∧ (0xF : Nibble) ≠ 0 ∧ 0x1000 < (State.reset.setI 0xFF2).i.toNat + (0xF : Nibble).toNat := by decide

/-- The sprite of `oneLit` drawn on a dark pixel, and on the lit one. -/
theorem witness_DrawingTwiceRestoresTheFramebuffer :
    (∃ t, exec (.drw 1 2 1) (oneLit.setV 1 63) = .next t ∧ t.getV 1 = (oneLit.setV 1 63).getV 1 ∧ t.getV 2 = (oneLit.setV 1 63).getV 2 ∧
      ∃ px py, px < 64 ∧ py < 32 ∧ (oneLit.setV 1 63).pixel px py = false ∧ spriteCovers (oneLit.setV 1 63) 1 2 1 px py = true) ∧
    (∃ t, exec (.drw 1 2 1) oneLit = .next t ∧ t.getV 1 = oneLit.getV 1 ∧ t.getV 2 = oneLit.getV 2) ∧ oneLit.i.toNat + (1 : Nibble).toNat ≤ 0x1000 :=
  ⟨⟨_, rfl, by decide +kernel, by decide +kernel, 63, 0, by decide +kernel⟩, ⟨_, rfl, by decide +kernel, by decide +kernel⟩, by decide⟩

/-- The second clause of the same statement: the sprite of `oneLit` covers no pixel but the lit one. -/
theorem witness_DrawingTwice_over_lit_pixels :
    ∀ px : Fin 64, ∀ py : Fin 32, spriteCovers oneLit 1 2 1 px.val py.val = true → oneLit.pixel px.val py.val = true := by decide +kernel

theorem witness_CallPushesTheReturnAddress : ({ State.reset with sp := 15 } : State).sp.val < 16 := by decide

theorem witness_ReturnPopsIntoPc : ({ State.reset with sp := 16 } : State).sp.val = (15 : Fin 16).val + 1 ∧
    ({ State.reset with sp := 1 } : State).sp.val = (0 : Fin 16).val + 1 := by decide

theorem witness_StackLimitsRaise : ({ State.reset with sp := 16 } : State).sp.val = 16 ∧ State.reset.sp.val = 0 := by decide

theorem witness_NestedCallsReturnInOrder :
    State.reset.latch = none ∧ State.reset.sp.val + (List.replicate 16 (0x300 : Addr)).length ≤ 16 ∧
    15 < (List.replicate 16 (0x300 : Addr)).length := by decide

theorem witness_HoldsResultAndFlag :
    (0xE : Nibble) ≠ 0xF ∧ State.reset.cfg.vfOrder = .flagLast ∧
    ({ State.reset with cfg := { Config.default with vfOrder := .resultLast } } : State).cfg.vfOrder = .resultLast := by decide

theorem witness_FontAddressFollowsItsPolicy :
    let s := withV [(0, 0xF), (1, 0x10)]
    let u := { s with cfg := { Config.default with fontIndex := .fault } }
    s.cfg.fontIndex = .linear ∧ (u.getV 0).toNat ≤ 15 ∧ ({ s with cfg := { Config.default with fontIndex := .lowNibble } } : State).cfg.fontIndex = .lowNibble ∧
    u.cfg.fontIndex = .fault ∧ 15 < (u.getV 1).toNat := by decide

theorem witness_DecimalDigitsAreStored :
    (State.reset.setI 0xFFD).i.toNat + 2 ≤ 0xFFF ∧ 0xFFF < (State.reset.setI 0xFFE).i.toNat + 2 := by decide

/-- Both bounds, for the store and for the load. -/
theorem witness_RegistersAreStored_and_Loaded :
    (State.reset.setI 0xFF0).i.toNat + (0xF : Nibble).toNat ≤ 0xFFF ∧ 0xFFF < (State.reset.setI 0xFF1).i.toNat + (0xF : Nibble).toNat ∧
    ({ State.reset with cfg := { Config.default with loadStoreIncrementsI := true } } : State).cfg.loadStoreIncrementsI = true := by decide

theorem witness_StoredRegistersLoadBack :
    ∃ t, exec (.ldMemStore 0xF) (State.reset.setI 0xFF0) = .next t ∧ (t.setV 3 9).mem = t.mem ∧ (t.setV 3 9).i = (State.reset.setI 0xFF0).i :=
  ⟨_, rfl, rfl, rfl⟩

/-- Stores that reach both bytes of the next instruction, its first alone (the last byte stored), its second alone, and neither; pc at its bound. -/
theorem witness_StoredCodeIsFetchedNext :
    let s := State.reset.setI 0x1FF
    let u := State.reset.setI 0x203
    let z := ({ State.reset with pc := 0xFFC } : State).setI 0xFFD
    (s.pc.toNat ≤ 0xFFC ∧ s.i.toNat + (3 : Nibble).toNat ≤ 0xFFF ∧ s.i.toNat + (3 : Nibble).toNat = s.pc.toNat + 2 ∧
      ¬ (s.i.toNat ≤ s.pc.toNat + 3 ∧ s.pc.toNat + 3 ≤ s.i.toNat + (3 : Nibble).toNat)) ∧
    (u.i.toNat + (0 : Nibble).toNat = u.pc.toNat + 3 ∧ ¬ (u.i.toNat ≤ u.pc.toNat + 2 ∧ u.pc.toNat + 2 ≤ u.i.toNat + (0 : Nibble).toNat)) ∧
    (z.pc.toNat ≤ 0xFFC ∧ z.i.toNat + 2 ≤ 0xFFF ∧ z.i.toNat + 1 = z.pc.toNat + 2 ∧ z.i.toNat + 2 = z.pc.toNat + 3) ∧
    ¬ (State.reset.i.toNat ≤ State.reset.pc.toNat + 2 ∧ State.reset.pc.toNat + 2 ≤ State.reset.i.toNat + 2) := by decide

theorem witness_KeySkipsComplete :
    let s := withV [(0, 0xF), (1, 0x10)]
    let u := { s with cfg := { Config.default with keyIndex := .lowNibble } }
    ((0xF : Nibble).toNat = (s.getV 0).toNat % 16 ∧ (s.getV 0).toNat ≤ 15) ∧ ((0 : Nibble).toNat = (u.getV 1).toNat % 16 ∧ u.cfg.keyIndex = .lowNibble) := by decide

theorem witness_KeyNumberOutOfRangeRaises :
    let s := withV [(1, 0x10)]
    s.cfg.keyIndex = .fault ∧ 15 < (s.getV 1).toNat := by decide

theorem witness_KeyWaitPollsTheKeypad :
    let s := State.reset.setKeyState 0xF true
    (∀ k, State.reset.key k = false) ∧ (∃ k, s.key k = true) ∧ s.cfg.keySelect = .lowest := by decide

theorem witness_WaitEndsWithTheKeyTheHostSets :
    let s := placed 0xF50A
    s.latch = none ∧ (s.cfg.oddPc = .execute ∨ s.pc.toNat % 2 = 0) ∧ s.fetchWord = some 0xF50A ∧ decodeWord 0xF50A = some (.ldVxK 5) ∧
    (∀ j, s.key j = false) := by decide

theorem witness_StepLeavesKeysParametersAndRedraw :
    ∃ t, step { placed 0x00E0 with redraw := true } = .next t ∧ ({ placed 0x00E0 with redraw := true } : State).redraw = true := ⟨_, rfl, rfl⟩

/-- CLS for the memory rule, LD I for the display rule and the stack and timer rule. -/
theorem witness_writer_rules :
    (∃ t, exec .cls State.reset = .next t ∧ (∀ x, Instr.cls ≠ .ldB x) ∧ ∀ x, Instr.cls ≠ .ldMemStore x) ∧
    (∃ t, exec (.ldI 0x300) State.reset = .next t ∧ Instr.ldI 0x300 ≠ .cls ∧ (∀ x y n, Instr.ldI 0x300 ≠ .drw x y n) ∧ (∀ a, Instr.ldI 0x300 ≠ .call a) ∧
      Instr.ldI 0x300 ≠ .ret ∧ (∀ x, Instr.ldI 0x300 ≠ .ldDTVx x) ∧ ∀ x, Instr.ldI 0x300 ≠ .ldSTVx x) :=
  ⟨⟨_, rfl, nofun, nofun⟩, ⟨_, rfl, nofun, nofun, nofun, nofun, nofun, nofun⟩⟩

theorem witness_IndexRegisterHasItsWriters : ∃ t, exec (.ldI 0x300) State.reset = .next t ∧ t.i ≠ State.reset.i := ⟨_, rfl, by decide⟩

theorem witness_FlagRegisterHasItsWriters : ∃ t, exec (.ldImm 0xF 5) State.reset = .next t ∧ t.getV 0xF ≠ State.reset.getV 0xF := ⟨_, rfl, by decide⟩

theorem witness_StepKeepsTheInvariant : State.reset.Inv ∧ ∃ t, step State.reset = .next t := ⟨by decide, _, rfl⟩

theorem witness_EveryHostScheduleKeepsTheInvariant : State.reset.Inv := by decide

/-- An Fx0A that waits, with the state one step leaves. -/
theorem witness_StepKeepsTheWaitAtItsFx0A :
    let s := { placed 0xF50A with keyWait := some 5 }
    s.WaitsAtItsFx0A ∧ s.keyWait = some 5 ∧ ∃ t, step s = .next t :=
  ⟨fun x h _ => ⟨0xF50A, by decide, by injection h with h; subst h; decide⟩, rfl, _, rfl⟩

theorem witness_CanonicalMemoriesAreDeterminedByTheirReads :
    let m : Memory := Memory.writeBytes [] 0xFFE [1, 2]
    let m' : Memory := (Memory.writeBytes [] 0xFFF [2]).write 0xFFE 1
    m.wf ∧ m'.wf ∧ ∀ a, m.read a = m'.read a :=
  ⟨by decide, by decide, fun _ => rfl⟩

/-- Two different states with the same parameters and draws, and the addresses on either side of the font area. -/
theorem witness_HostResetLeavesNothingFromBefore :
    (withV [(0, 1)]).cfg = State.reset.cfg ∧ (withV [(0, 1)]).draws = State.reset.draws ∧ (withV [(0, 1)]).v ≠ State.reset.v ∧ ¬ (0x050 ≤ 0x04F ∧ 0x04F ≤ 0x09F) ∧ ¬ (0x050 ≤ 0x0A0 ∧ 0x0A0 ≤ 0x09F) := by decide

theorem witness_SetKeyWritesOneKey : 15 ≤ 15 ∧ 15 < 16 := by decide

theorem witness_LoadCopiesTheProgram :
    (List.replicate 3584 (0 : Byte)).length ≤ 3584 ∧ 3584 < (List.replicate 3585 (0 : Byte)).length ∧ ([] : List Byte).length ≤ 3584 := by
  simp only [List.length_replicate]; decide

end Sys2Proof.Tests
end

section
/-! PROOF. The fetch (20_memory.md R54): where it succeeds, the value of the word it reads, and the step past its bound. -/

namespace Sys2Proof.Machine

/-- Two bytes read big-endian, in numbers. -/
theorem toNat_bigEndian (hi lo : Byte) : (hi ++ lo).toNat = hi.toNat * 256 + lo.toNat := by
  rw [BitVec.toNat_append, ← Nat.shiftLeft_add_eq_or_of_lt lo.isLt, Nat.shiftLeft_eq]

theorem State.fetchWord_isSome {s : State} : s.fetchWord.isSome ↔ s.pc.toNat ≤ 0xFFE := by
  simp [Option.isSome_iff_exists, State.fetchWord_eq_some]

theorem State.fetchWord_eq_none {s : State} : s.fetchWord = none ↔ 0xFFE < s.pc.toNat := by
  rw [← Option.not_isSome_iff_eq_none, State.fetchWord_isSome, Nat.not_le]

theorem State.toNat_of_fetchWord {s : State} {w : Word} (h : s.fetchWord = some w) :
    w.toNat = (s.mem.read s.pc.toNat).toNat * 256 + (s.mem.read (s.pc.toNat + 1)).toNat := by
  obtain ⟨-, rfl⟩ := State.fetchWord_eq_some.mp h
  exact toNat_bigEndian _ _

/-- Past the bound the fetch raises the same error whether or not the pc is odd too, so this holds under either OddPcPolicy (R55). -/
theorem State.fetch_of_fetchWord_eq_none {s : State} (hl : s.latch = none) (hw : s.fetchWord = none) :
    s.fetch = .stop (s.raise .outOfBounds none) := by
  rw [State.fetch_eq_stop]
  cases ho : s.oddPcFault with
  | true => exact .inr (.inl ⟨hl, rfl, rfl⟩)
  | false => exact .inr (.inr (.inl ⟨hl, rfl, hw, rfl⟩))

/-- Settles O7, from what the fetch answers (R54) and the step that ends in it. -/
theorem fetchIsBigEndianAndBounded : Obligations.FetchIsBigEndianAndBounded := by
  unfold Obligations.FetchIsBigEndianAndBounded
  intro s
  refine ⟨State.fetchWord_isSome, fun w => State.toNat_of_fetchWord, fun hl hpc => ?_⟩
  have hstop := State.fetch_of_fetchWord_eq_none hl (State.fetchWord_eq_none.mpr hpc)
  exact step_eq_next.mpr (.inl hstop)

end Sys2Proof.Machine
end

section
/-! PROOF. An instruction that writes one V register and advances (30_encoding.md R73): what it completes as, and the two register loads (42_alu.md R150, R152). -/

namespace Sys2Proof.Machine

/-- The write of Vx and the default advance leave everything else of the state as it was. -/
theorem State.frame_setV_advance (s : State) (x : Nibble) (b : Byte) : Frame [x] 0 0 [.pc, .keyWait] s (s.setV x b).advance := by
  have hregs : ∀ r, r ∉ [x] → (s.setV x b).advance.getV r = s.getV r := by
    intro r hr
    have hne : x ≠ r := fun h => hr (h ▸ List.mem_singleton_self x)
    rw [State.advance_getV, State.getV_setV, if_neg hne]
  refine ⟨hregs, ?_⟩
  simp

theorem completes_of_exec_setV_advance {i : Instr} {s : State} {x : Nibble} {b : Byte} (h : exec i s = .next (s.setV x b).advance) :
    Completes i s (s.setV x b).advance (s.pc + 2) [x] 0 0 [] :=
  ⟨h, rfl, rfl, s.frame_setV_advance x b⟩

theorem State.getV_setV_advance_self (s : State) (x : Nibble) (b : Byte) : (s.setV x b).advance.getV x = b := by
  rw [State.advance_getV, State.getV_setV, if_pos rfl]

theorem decodeWord_ldImm (x : Nibble) (kk : Byte) : decodeWord (wordXkk 0x6 x kk) = some (.ldImm x kk) := by
  simp [decodeWord]

/-- The ALU family is read by its low nibble (R77). -/
theorem decodeWord_aluFamily (x y n : Nibble) : decodeWord (wordXyn 0x8 x y n) = decodeAlu x y n := by
  simp [decodeWord]

theorem exec_ldImm (x : Nibble) (kk : Byte) (s : State) : exec (.ldImm x kk) s = .next (s.setV x kk).advance := rfl

theorem exec_ldReg (x y : Nibble) (s : State) : exec (.ldReg x y) s = .next (s.setV x (s.getV y)).advance := rfl

/-- Settles O23: both loads are one register write and the advance, with kk or the value Vy had before as what is written. -/
theorem registerLoadsComplete : Obligations.RegisterLoadsComplete := by
  unfold Obligations.RegisterLoadsComplete
  intro x y kk s
  refine ⟨⟨decodeWord_ldImm x kk, (s.setV x kk).advance, ?_, ?_⟩, decodeWord_aluFamily x y 0x0, (s.setV x (s.getV y)).advance, ?_, ?_⟩
  · exact completes_of_exec_setV_advance (exec_ldImm x kk s)
  · exact s.getV_setV_advance_self x kk
  · exact completes_of_exec_setV_advance (exec_ldReg x y s)
  · exact s.getV_setV_advance_self x (s.getV y)

end Sys2Proof.Machine
end

section
/-! PROOF. The instructions that write I or a block of memory and advance (43_index_memory.md R180, R183): what they leave unchanged, and the digits LD B stores. -/

namespace Sys2Proof.Machine

theorem decodeWord_ldI (nnn : Addr) : decodeWord (wordNnn 0xA nnn) = some (.ldI nnn) := by
  simp [decodeWord]

/-- The family 0xF is read by its low byte (R79). -/
theorem decodeWord_miscFamily (x : Nibble) (kk : Byte) : decodeWord (wordXkk 0xF x kk) = decodeMisc x kk := by
  simp [decodeWord]

/-- The write of I and the default advance leave everything else of the state as it was. -/
theorem State.frame_setI_advance (s : State) (n : Nat) : Frame [] 0 0 [.pc, .keyWait, .i] s (s.setI n).advance := by
  simp [Frame]

/-- I keeps the low 12 bits of what is written to it (10_state.md R24). -/
theorem State.toNat_i_setI (s : State) (n : Nat) : (s.setI n).i.toNat = n % 4096 := by
  rw [State.setI_i, BitVec.toNat_ofNat]
  omega

theorem exec_ldI (nnn : Addr) (s : State) : exec (.ldI nnn) s = .next (s.setI nnn.toNat).advance := rfl

/-- Settles O30: LD I is one write of I, where a 12-bit value fits, and the advance. -/
theorem loadIndexCompletes : Obligations.LoadIndexCompletes := by
  unfold Obligations.LoadIndexCompletes
  intro nnn s
  refine ⟨decodeWord_ldI nnn, (s.setI nnn.toNat).advance, ⟨exec_ldI nnn s, rfl, rfl, s.frame_setI_advance _⟩, ?_⟩
  rw [State.advance_i, State.toNat_i_setI]
  exact Nat.mod_eq_of_lt nnn.isLt

/-- A byte of a block just written, by its offset in the block. -/
theorem Memory.read_writeBytes_add (m : Memory) (a : Nat) {k : Nat} {bs : List Byte} (h : k < bs.length) :
    (m.writeBytes a bs).read (a + k) = bs.getD k 0 := by
  rw [Memory.read_writeBytes, if_pos (by omega), Nat.add_sub_cancel_left]

/-- A range-checked write and the default advance change the bytes of the block and nothing else. -/
theorem State.frame_memWrite_advance {s t : State} {a : Nat} {bs : List Byte} (h : s.memWrite a bs = some t) :
    Frame [] a bs.length [.pc, .keyWait] s t.advance := by
  obtain ⟨-, rfl⟩ := State.memWrite_eq_some.mp h
  have hmem : ∀ q, ¬ (a ≤ q ∧ q < a + bs.length) → (s.mem.writeBytes a bs).read q = s.mem.read q :=
    fun q => Memory.read_writeBytes_outside s.mem a q bs
  have hregs : ∀ r, r ∉ [] → ({ s with mem := s.mem.writeBytes a bs }.advance : State).getV r = s.getV r := fun _ _ => rfl
  refine ⟨hregs, hmem, ?_⟩
  simp

/-- What an instruction that writes a block of memory and advances completes as, when the block lies in memory (20_memory.md R51). -/
theorem completes_of_exec_memWrite_advance {i : Instr} {e : Fault} {s : State} {a : Nat} {bs : List Byte}
    (h : exec i s = s.orRaise e i (s.memWrite a bs) State.advance) (hr : a + bs.length ≤ memSize) :
    Completes i s { s with mem := s.mem.writeBytes a bs }.advance (s.pc + 2) [] a bs.length [] := by
  have hw : s.memWrite a bs = some { s with mem := s.mem.writeBytes a bs } := State.memWrite_eq_some.mpr ⟨hr, rfl⟩
  rw [hw, State.orRaise_some] at h
  exact ⟨h, rfl, rfl, State.frame_memWrite_advance hw⟩

/-- An instruction that writes a block of memory raises its error when the block's last byte lies past the end (R51). -/
theorem raises_of_exec_memWrite {i : Instr} {e : Fault} {s : State} {a : Nat} {bs : List Byte} {go : State → State}
    (h : exec i s = s.orRaise e i (s.memWrite a bs) go) (hr : memSize < a + bs.length) : Raises i s e := by
  rw [State.memWrite_eq_none.mpr hr, State.orRaise_none] at h
  exact h

theorem exec_ldB (x : Nibble) (s : State) :
    exec (.ldB x) s = s.orRaise .outOfBounds (.ldB x) (s.memWrite s.i.toNat (decimalDigits (s.getV x))) State.advance := rfl

theorem length_decimalDigits (b : Byte) : (decimalDigits b).length = 3 := rfl

/-- The quotients the digits are made of fit a byte, so no digit is cut off. -/
theorem toNat_decimalDigits (b : Byte) :
    ((decimalDigits b).getD 0 0).toNat = b.toNat / 100 ∧ ((decimalDigits b).getD 1 0).toNat = b.toNat / 10 % 10 ∧
      ((decimalDigits b).getD 2 0).toNat = b.toNat % 10 := by
  have hb := b.isLt
  refine ⟨?_, ?_, ?_⟩ <;> exact Nat.mod_eq_of_lt (by omega)

/-- In memory where the digits of `b` were just written, the three bytes are a hundreds, a tens and a units digit, and make `b` again. -/
theorem Memory.decimalDigits_read_back {m m' : Memory} {a : Nat} {b : Byte} (h : m' = m.writeBytes a (decimalDigits b)) :
    (m'.read a).toNat ≤ 2 ∧ (m'.read (a + 1)).toNat ≤ 9 ∧ (m'.read (a + 2)).toNat ≤ 9 ∧
      b.toNat = 100 * (m'.read a).toNat + 10 * (m'.read (a + 1)).toNat + (m'.read (a + 2)).toNat := by
  have hread : ∀ k, k < 3 → m'.read (a + k) = (decimalDigits b).getD k 0 := fun k hk => h ▸ m.read_writeBytes_add a hk
  have hfirst : m'.read a = (decimalDigits b).getD 0 0 := hread 0 (by decide)
  obtain ⟨hhundreds, htens, hunits⟩ := toNat_decimalDigits b
  have hb := b.isLt
  rw [hfirst, hread 1 (by decide), hread 2 (by decide), hhundreds, htens, hunits]
  omega

/-- Settles O33: the three digits are written when all their addresses exist, and read back they make Vx again; otherwise the range check raises. -/
theorem decimalDigitsAreStored : Obligations.DecimalDigitsAreStored := by
  unfold Obligations.DecimalDigitsAreStored
  intro x s
  have hlen := length_decimalDigits (s.getV x)
  refine ⟨decodeWord_miscFamily x 0x33, fun hin => ?_, fun hout => ?_⟩
  · have hr : s.i.toNat + (decimalDigits (s.getV x)).length ≤ memSize := by rw [hlen, memSize]; omega
    exact ⟨_, completes_of_exec_memWrite_advance (exec_ldB x s) hr, Memory.decimalDigits_read_back rfl⟩
  · have hr : memSize < s.i.toNat + (decimalDigits (s.getV x)).length := by rw [hlen, memSize]; omega
    exact raises_of_exec_memWrite (exec_ldB x s) hr

end Sys2Proof.Machine
end

section
/-! PROOF. The decoder and the encoder are inverse (30_encoding.md R70 to R80): each family read from its own opcode form, the words each family rejects,
and the encoder's word for what a family accepts. -/

namespace Sys2Proof

/-! ### Each family's reading of its own opcode form -/

theorem decodeWord_keySkipFamily (x : Nibble) (kk : Byte) : decodeWord (wordXkk 0xE x kk) = decodeKeySkip x kk := by
  simp [decodeWord]

theorem decodeWord_seRegFamily (x y n : Nibble) : decodeWord (wordXyn 0x5 x y n) = decodeZeroNibble n (.seReg x y) := by
  simp [decodeWord]

theorem decodeWord_sneRegFamily (x y n : Nibble) : decodeWord (wordXyn 0x9 x y n) = decodeZeroNibble n (.sneReg x y) := by
  simp [decodeWord]

/-- Settles O1: the fields of an encoded word are the operands, and the digits the encoder wrote select the instruction's own arm. -/
theorem everyOpcodeDecodesToItsInstruction : Obligations.EveryOpcodeDecodesToItsInstruction := by
  unfold Obligations.EveryOpcodeDecodesToItsInstruction
  intro i
  cases i with
  | cls | ret => decide
  | jp nnn | call nnn | ldI nnn | jpV0 nnn => simp [encode, decodeWord]
  | seImm x kk | sneImm x kk | ldImm x kk | addImm x kk | rnd x kk => simp [encode, decodeWord]
  | drw x y n => simp [encode, decodeWord]
  | seReg x y => exact decodeWord_seRegFamily x y 0x0
  | sneReg x y => exact decodeWord_sneRegFamily x y 0x0
  | ldReg x y | orReg x y | andReg x y | xorReg x y | addReg x y | sub x y | shr x y | subn x y | shl x y =>
    exact Machine.decodeWord_aluFamily x y _
  | skp x | sknp x => exact decodeWord_keySkipFamily x _
  | ldVxDT x | ldVxK x | ldDTVx x | ldSTVx x | addI x | ldF x | ldB x | ldMemStore x | ldMemLoad x =>
    exact Machine.decodeWord_miscFamily x _

/-! ### What a family accepts encodes back -/

theorem wordNnn_of_opField {w : Word} {op : Nibble} (h : opField w = op) : wordNnn op (nnnField w) = w := by
  subst h; exact (word_eq_wordNnn w).symm

theorem wordXkk_of_opField {w : Word} {op : Nibble} (h : opField w = op) : wordXkk op (xField w) (kkField w) = w := by
  subst h; exact (word_eq_wordXkk w).symm

theorem wordXyn_of_opField {w : Word} {op : Nibble} (h : opField w = op) : wordXyn op (xField w) (yField w) (nField w) = w := by
  subst h; exact (word_eq_wordXyn w).symm

theorem encode_of_decodeSystem {nnn : Addr} {i : Instr} (h : decodeSystem nnn = some i) : encode i = wordNnn 0x0 nnn := by
  unfold decodeSystem at h
  split at h <;> cases h <;> rfl

theorem decodeZeroNibble_eq_some {n : Nibble} {i j : Instr} (h : decodeZeroNibble n j = some i) : i = j ∧ n = 0x0 := by
  unfold decodeZeroNibble at h
  split at h <;> cases h
  exact ⟨rfl, rfl⟩

theorem encode_of_decodeAlu {x y n : Nibble} {i : Instr} (h : decodeAlu x y n = some i) : encode i = wordXyn 0x8 x y n := by
  unfold decodeAlu at h
  split at h <;> cases h <;> rfl

theorem encode_of_decodeKeySkip {x : Nibble} {kk : Byte} {i : Instr} (h : decodeKeySkip x kk = some i) : encode i = wordXkk 0xE x kk := by
  unfold decodeKeySkip at h
  split at h <;> cases h <;> rfl

theorem encode_of_decodeMisc {x : Nibble} {kk : Byte} {i : Instr} (h : decodeMisc x kk = some i) : encode i = wordXkk 0xF x kk := by
  unfold decodeMisc at h
  split at h <;> cases h <;> rfl

/-- Settles O2, family by family: the encoder puts together the fields the family read, and a word is its fields put together. -/
theorem decodedWordsEncodeBack : Obligations.DecodedWordsEncodeBack := by
  unfold Obligations.DecodedWordsEncodeBack
  intro w i h
  unfold decodeWord at h
  split at h
  case h_1 hop => exact (encode_of_decodeSystem h).trans (wordNnn_of_opField hop)
  case h_2 hop | h_3 hop | h_11 hop | h_12 hop => cases h; exact wordNnn_of_opField hop
  case h_4 hop | h_5 hop | h_7 hop | h_8 hop | h_13 hop => cases h; exact wordXkk_of_opField hop
  case h_14 hop => cases h; exact wordXyn_of_opField hop
  case h_6 hop | h_10 hop =>
    obtain ⟨rfl, hn⟩ := decodeZeroNibble_eq_some h
    have hw := wordXyn_of_opField hop
    rwa [hn] at hw
  case h_9 hop => exact (encode_of_decodeAlu h).trans (wordXyn_of_opField hop)
  case h_15 hop => exact (encode_of_decodeKeySkip h).trans (wordXkk_of_opField hop)
  case h_16 hop => exact (encode_of_decodeMisc h).trans (wordXkk_of_opField hop)
  case h_17 => cases h

/-! ### The words a family rejects -/

/-- The sixteen digits are all there are. -/
theorem Machine.mem_allKeys (k : Nibble) : k ∈ Machine.allKeys := by
  revert k; decide

theorem decodeSystem_eq_none {nnn : Addr} : decodeSystem nnn = none ↔ nnn ≠ 0x0E0 ∧ nnn ≠ 0x0EE := by
  unfold decodeSystem
  split <;> simp_all

theorem decodeZeroNibble_eq_none {n : Nibble} {i : Instr} : decodeZeroNibble n i = none ↔ n ≠ 0x0 := by
  unfold decodeZeroNibble
  split <;> simp_all

theorem decodeAlu_eq_none {x y n : Nibble} : decodeAlu x y n = none ↔ n ∈ [0x8#4, 0x9#4, 0xA#4, 0xB#4, 0xC#4, 0xD#4, 0xF#4] := by
  unfold decodeAlu
  split
  case h_10 => revert n; decide
  all_goals simp

theorem decodeKeySkip_eq_none {x : Nibble} {kk : Byte} : decodeKeySkip x kk = none ↔ kk ∉ [0x9E#8, 0xA1#8] := by
  unfold decodeKeySkip
  split <;> simp_all

theorem decodeMisc_eq_none {x : Nibble} {kk : Byte} :
    decodeMisc x kk = none ↔ kk ∉ [0x07#8, 0x0A#8, 0x15#8, 0x18#8, 0x1E#8, 0x29#8, 0x33#8, 0x55#8, 0x65#8] := by
  unfold decodeMisc
  split <;> simp_all

theorem nnnField_eq_iff {w : Word} {op : Nibble} (h : opField w = op) (nnn : Addr) : nnnField w = nnn ↔ w = wordNnn op nnn :=
  ⟨fun hn => by rw [← hn, wordNnn_of_opField h], fun hw => by rw [hw, nnnField_wordNnn]⟩

/-- In family 0 the two words it accepts are the two addresses it accepts. -/
theorem decodeSystem_nnnField_eq_none {w : Word} (h : opField w = 0x0) : decodeSystem (nnnField w) = none ↔ w ≠ 0x00E0 ∧ w ≠ 0x00EE := by
  rw [decodeSystem_eq_none, ne_eq, ne_eq, nnnField_eq_iff h, nnnField_eq_iff h]
  exact Iff.rfl

/-- Settles O3: the family's rejected words in the families that reject any, and no word of the others. -/
theorem unsupportedWordsAreTheUnmatchedOnes : Obligations.UnsupportedWordsAreTheUnmatchedOnes := by
  unfold Obligations.UnsupportedWordsAreTheUnmatchedOnes
  intro w
  unfold decodeWord
  split
  case h_1 h => rw [decodeSystem_nnnField_eq_none h]; simp [h]
  case h_6 h | h_10 h => rw [decodeZeroNibble_eq_none]; simp [h]
  case h_9 h => rw [decodeAlu_eq_none]; simp [h]
  case h_15 h => rw [decodeKeySkip_eq_none]; simp [h]
  case h_16 h => rw [decodeMisc_eq_none]; simp [h]
  case h_17 =>
    have hop := Machine.mem_allKeys (opField w)
    simp_all [Machine.allKeys]
  all_goals simp [*]

/-! ### The low digits of families 0x8, 0xE and 0xF -/

/-- Settles O4, one family at a time: each is read by its low digits alone (`decodeWord_aluFamily` and its like), and those select as in R77 to R79. -/
theorem lowDigitsSelectInFamilies8EF : Obligations.LowDigitsSelectInFamilies8EF := by
  unfold Obligations.LowDigitsSelectInFamilies8EF
  refine ⟨fun x y n => (Machine.decodeWord_aluFamily x y n).trans ?_, fun x kk => (decodeWord_keySkipFamily x kk).trans ?_,
    fun x kk => (Machine.decodeWord_miscFamily x kk).trans ?_⟩
  · unfold decodeAlu
    split <;> simp_all
  · unfold decodeKeySkip
    split <;> simp_all
  · unfold decodeMisc
    split <;> simp_all

/-- Settles O5: one evaluation of the decoder for each word. -/
theorem writtenOutOpcodesDecode : Obligations.WrittenOutOpcodesDecode := by
  unfold Obligations.WrittenOutOpcodesDecode
  decide

end Sys2Proof
end

section
/-! PROOF. Frames (what may differ between two states), and for every instruction its footprint: the registers, bytes and elements it may write. From the
footprint follow that every instruction answers a state and the writer lists of 10_state.md and 20_memory.md. -/

namespace Sys2Proof.Machine

/-! ### Frames of the state operations -/

section
variable {regs : List Nibble} {base len : Nat} {fields : List Field} {s t : State} (h : Frame regs base len fields s t)
include h

theorem Frame.getV_eq {r : Nibble} (hr : r ∉ regs) : t.getV r = s.getV r := by simp_all [Frame]
theorem Frame.i_eq (hf : Field.i ∉ fields) : t.i = s.i := by simp_all [Frame]
theorem Frame.stack_eq (hf : Field.stack ∉ fields) : t.stack = s.stack := by simp_all [Frame]
theorem Frame.sp_eq (hf : Field.sp ∉ fields) : t.sp = s.sp := by simp_all [Frame]
theorem Frame.dt_eq (hf : Field.dt ∉ fields) : t.dt = s.dt := by simp_all [Frame]
theorem Frame.st_eq (hf : Field.st ∉ fields) : t.st = s.st := by simp_all [Frame]
theorem Frame.fb_eq (hf : Field.fb ∉ fields) : t.fb = s.fb := by simp_all [Frame]
theorem Frame.keys_eq (hf : Field.keys ∉ fields) : t.keys = s.keys := by simp_all [Frame]
theorem Frame.redraw_eq (hf : Field.redraw ∉ fields) : t.redraw = s.redraw := by simp_all [Frame]
theorem Frame.latch_eq (hf : Field.latch ∉ fields) : t.latch = s.latch := by simp_all [Frame]
theorem Frame.cfg_eq (hf : Field.cfg ∉ fields) : t.cfg = s.cfg := by simp_all [Frame]

end

theorem Frame.refl (regs : List Nibble) (base len : Nat) (fields : List Field) (s : State) : Frame regs base len fields s s := by
  simp [Frame]

theorem Frame.trans {regs : List Nibble} {base len : Nat} {fields : List Field} {s t u : State}
    (h : Frame regs base len fields s t) (h' : Frame regs base len fields t u) : Frame regs base len fields s u := by
  unfold Frame at *
  simp_all

theorem Frame.goto {regs : List Nibble} {base len : Nat} {fields : List Field} {s t : State}
    (h : Frame regs base len fields s t) (p : Word) : Frame regs base len (.pc :: .keyWait :: fields) s (t.goto p) := by
  unfold Frame at *
  simp_all

/-- More may differ than is said to. -/
theorem Frame.mono {regs regs' : List Nibble} {base len base' len' : Nat} {fields fields' : List Field} {s t : State}
    (h : Frame regs base len fields s t) (hr : regs ⊆ regs') (hm : ∀ a, base ≤ a ∧ a < base + len → base' ≤ a ∧ a < base' + len')
    (hf : fields ⊆ fields') : Frame regs' base' len' fields' s t := by
  obtain ⟨hregs, hmem, hfields⟩ := h
  refine ⟨fun r h => hregs r fun h' => h (hr h'), fun a h => hmem a fun h' => h (hm a h'), ?_⟩
  have hout : ∀ f, f ∉ fields' → f ∉ fields := fun f h h' => h (hf h')
  simp_all

/-- A write of elements alone after one of registers and memory alone. -/
theorem Frame.trans_fields {regs : List Nibble} {base len : Nat} {fields : List Field} {s t u : State} (h : Frame regs base len [] s t)
    (h' : Frame [] 0 0 fields t u) : Frame regs base len fields s u :=
  (h.mono (.refl _) (fun _ ha => ha) (List.nil_subset _)).trans (h'.mono (List.nil_subset _) (by omega) (.refl _))

/-- A write of registers alone after one of elements alone. -/
theorem Frame.trans_regs {regs : List Nibble} {fields : List Field} {s t u : State} (h : Frame [] 0 0 fields s t)
    (h' : Frame regs 0 0 [] t u) : Frame regs 0 0 fields s u :=
  (h.mono (List.nil_subset _) (by omega) (.refl _)).trans (h'.mono (.refl _) (by omega) (List.nil_subset _))

theorem mem_regsUpTo {x r : Nibble} : r ∈ regsUpTo x ↔ r.toNat ≤ x.toNat := by
  simp [regsUpTo, mem_allKeys]

theorem State.frame_setV (s : State) (x : Nibble) (b : Byte) : Frame [x] 0 0 [] s (s.setV x b) := by
  simp +contextual [Frame, eq_comm]

theorem State.frame_writeResultAndFlag (s : State) (x : Nibble) (r : Byte) (f : Bool) :
    Frame [x, 0xF] 0 0 [] s (s.writeResultAndFlag x r f) := by
  have hregs : ∀ q, q ∉ [x, (0xF : Nibble)] → (s.writeResultAndFlag x r f).getV q = s.getV q := by
    intro q hq
    simp only [List.mem_cons, List.not_mem_nil, or_false, not_or] at hq
    have hx : x ≠ q := Ne.symm hq.1
    have hF : regF ≠ q := Ne.symm hq.2
    rw [State.writeResultAndFlag_getV]
    cases s.cfg.vfOrder <;> simp [hx, hF]
  refine ⟨hregs, ?_⟩
  simp

theorem State.frame_raise (s : State) (e : Fault) (o : Option Word) : Frame [] 0 0 [.latch] s (s.raise e o) := by
  simp [Frame]

theorem State.frame_waitKey (s : State) (x : Nibble) : Frame [] 0 0 [.keyWait] s (s.waitKey x) := by
  simp [Frame]

theorem State.frame_display (s : State) (fb : BitVec 2048) (r : Bool) : Frame [] 0 0 [.fb, .redraw] s { s with fb := fb, redraw := r } := by
  simp [Frame, State.getV]

theorem State.frame_draws (s : State) (n : Nat) : Frame [] 0 0 [.draws] s { s with draws := n } := by
  simp [Frame, State.getV]

theorem State.frame_dt (s : State) (b : Byte) : Frame [] 0 0 [.dt] s { s with dt := b } := by
  simp [Frame, State.getV]

theorem State.frame_st (s : State) (b : Byte) : Frame [] 0 0 [.st] s { s with st := b } := by
  simp [Frame, State.getV]

theorem State.frame_push {s t : State} {w : Word} (h : s.push w = some t) : Frame [] 0 0 [.stack, .sp] s t := by
  obtain ⟨-, rfl⟩ := State.push_eq_some.mp h
  simp [Frame, State.getV]

theorem State.frame_pop {s : State} {p : Word × State} (h : s.pop = some p) : Frame [] 0 0 [.sp] s p.2 := by
  obtain ⟨-, rfl⟩ := State.pop_eq_some.mp h
  simp [Frame, State.getV]

theorem State.frame_memWrite {s t : State} {a : Nat} {bs : List Byte} (h : s.memWrite a bs = some t) : Frame [] a bs.length [] s t := by
  obtain ⟨-, rfl⟩ := State.memWrite_eq_some.mp h
  refine ⟨fun _ _ => rfl, fun q => Memory.read_writeBytes_outside s.mem a q bs, ?_⟩
  simp

/-- Loading V0 to Vx writes no other register. -/
theorem State.frame_loadV (s : State) {x : Nibble} {bs : List Byte} (h : bs.length = x.toNat + 1) : Frame (regsUpTo x) 0 0 [] s (s.loadV bs) := by
  have hregs : ∀ r, r ∉ regsUpTo x → (s.loadV bs).getV r = s.getV r := by
    intro r hr
    rw [mem_regsUpTo] at hr
    rw [State.getV_loadV, List.getD_eq_default _ _ (by omega)]
  refine ⟨hregs, ?_⟩
  simp

theorem State.frame_setI (s : State) (n : Nat) : Frame [] 0 0 [.i] s (s.setI n) := by
  simp [Frame]

/-- What the parameter lets Fx55 and Fx65 do to I. -/
theorem State.frame_bumpI (s : State) (n : Nat) : Frame [] 0 0 (if s.cfg.loadStoreIncrementsI then [.i] else []) s (s.bumpI n) := by
  unfold State.bumpI
  split
  · exact s.frame_setI _
  · exact .refl ..

/-! ### Completion in terms of the last operation -/

theorem completes_of_exec_goto {i : Instr} {s t : State} {p : Word} {regs : List Nibble} {base len : Nat} {fields : List Field}
    (h : exec i s = .next (t.goto p)) (hf : Frame regs base len fields s t) : Completes i s (t.goto p) p regs base len fields :=
  ⟨h, rfl, rfl, hf.goto p⟩

theorem completes_of_exec_advance {i : Instr} {s t : State} {regs : List Nibble} {base len : Nat} {fields : List Field}
    (h : exec i s = .next t.advance) (hpc : t.pc = s.pc) (hf : Frame regs base len fields s t) :
    Completes i s t.advance (s.pc + 2) regs base len fields := by
  unfold State.advance at h ⊢
  rw [hpc] at h ⊢
  exact completes_of_exec_goto h hf

/-- An instruction whose own check fails raises its error. -/
theorem raises_of_exec_orRaise {α : Type} {i : Instr} {s : State} {e : Fault} {c : Option α} {go : α → State}
    (h : exec i s = s.orRaise e i c go) (hc : c = none) : Raises i s e := by
  rw [hc, State.orRaise_none] at h
  exact h

/-- What holds of the state an instruction goes on to, and of the state in which it has raised, holds of the state it answers. -/
theorem State.orRaise_answers {α : Type} {s : State} {e : Fault} {i : Instr} {c : Option α} {go : α → State} {P : State → Prop}
    (hgo : ∀ a, c = some a → P (go a)) (hraise : P (s.raise e (some (encode i)))) : ∃ t, s.orRaise e i c go = .next t ∧ P t := by
  cases c with
  | some a => exact ⟨go a, rfl, hgo a rfl⟩
  | none => exact ⟨_, rfl, hraise⟩

/-! ### The footprint of an instruction -/

/-- The registers an instruction may write. -/
def regsWritten : Instr → List Nibble
  | .ldImm x _ | .addImm x _ | .ldReg x _ | .orReg x _ | .andReg x _ | .xorReg x _ | .rnd x _ | .ldVxDT x | .ldVxK x => [x]
  | .addReg x _ | .sub x _ | .shr x _ | .subn x _ | .shl x _ => [x, 0xF]
  | .drw _ _ _ => [0xF]
  | .ldMemLoad x => regsUpTo x
  | _ => []

/-- How many bytes from I on an instruction may write. -/
def bytesWritten : Instr → Nat
  | .ldB _ => 3
  | .ldMemStore x => x.toNat + 1
  | _ => 0

/-- The elements beside pc, keyWait and the latch an instruction may write. -/
def fieldsWritten (cfg : Config) : Instr → List Field
  | .cls | .drw _ _ _ => [.fb, .redraw]
  | .call _ => [.stack, .sp]
  | .ret => [.sp]
  | .ldI _ | .addI _ | .ldF _ => [.i]
  | .ldMemStore _ | .ldMemLoad _ => if cfg.loadStoreIncrementsI then [.i] else []
  | .rnd _ _ => [.draws]
  | .ldDTVx _ => [.dt]
  | .ldSTVx _ => [.st]
  | _ => []

/-- Between `s` and `t` only what `i` may write differs; memory that `i` does not write is the same data. -/
structure Footprint (i : Instr) (s t : State) : Prop where
  frame : Frame (regsWritten i) s.i.toNat (bytesWritten i) (.pc :: .keyWait :: .latch :: fieldsWritten s.cfg i) s t
  mem : bytesWritten i = 0 → t.mem = s.mem

theorem Footprint.raise (i : Instr) (s : State) (e : Fault) (o : Option Word) : Footprint i s (s.raise e o) :=
  ⟨(s.frame_raise e o).mono (by simp) (by omega) (by simp), fun _ => rfl⟩

/-- The footprint of a completed instruction, from what its operations before the end write. -/
theorem Footprint.goto_of_frame {i : Instr} {s t : State} {base len : Nat} (h : Frame (regsWritten i) base len (fieldsWritten s.cfg i) s t)
    (hlen : ∀ a, base ≤ a ∧ a < base + len → s.i.toNat ≤ a ∧ a < s.i.toNat + bytesWritten i)
    (hm : bytesWritten i = 0 → t.mem = s.mem) (p : Word) : Footprint i s (t.goto p) := by
  have hfields : (.pc :: .keyWait :: fieldsWritten s.cfg i) ⊆ (.pc :: .keyWait :: .latch :: fieldsWritten s.cfg i : List Field) :=
    List.cons_subset_cons _ (List.cons_subset_cons _ (List.subset_cons_self _ _))
  exact ⟨(h.goto p).mono (List.Subset.refl _) hlen hfields, hm⟩

/-- The same for an instruction that leaves memory alone. -/
theorem Footprint.goto {i : Instr} {s t : State} (h : Frame (regsWritten i) 0 0 (fieldsWritten s.cfg i) s t) (hm : t.mem = s.mem) (p : Word) :
    Footprint i s (t.goto p) :=
  .goto_of_frame h (by omega) (fun _ => hm) p

theorem Footprint.advance {i : Instr} {s t : State} (h : Frame (regsWritten i) 0 0 (fieldsWritten s.cfg i) s t) (hm : t.mem = s.mem) :
    Footprint i s t.advance :=
  .goto h hm _

/-- A check of the instruction's own leaves its footprint on either side. -/
theorem footprint_orRaise {α : Type} {i : Instr} {s : State} {e : Fault} {c : Option α} {go : α → State}
    (hgo : ∀ a, c = some a → Footprint i s (go a)) : ∃ t, s.orRaise e i c go = .next t ∧ Footprint i s t :=
  State.orRaise_answers hgo (.raise i s e _)

theorem footprint_next {i : Instr} {s t : State} (h : Footprint i s t) : ∃ t', (.next t : Outcome) = .next t' ∧ Footprint i s t' :=
  ⟨t, rfl, h⟩

theorem footprint_drw (x y n : Nibble) (s : State) : ∃ t, exec (.drw x y n) s = .next t ∧ Footprint (.drw x y n) s t := by
  refine footprint_orRaise fun rows _ => ?_
  exact .goto (i := .drw x y n) ((s.frame_display _ true).trans_regs (State.frame_setV _ regF _)) rfl _

theorem footprint_ldMemStore (x : Nibble) (s : State) : ∃ t, exec (.ldMemStore x) s = .next t ∧ Footprint (.ldMemStore x) s t := by
  refine footprint_orRaise fun t ht => ?_
  have hframe := State.frame_memWrite ht
  rw [State.length_firstV] at hframe
  obtain ⟨-, rfl⟩ := State.memWrite_eq_some.mp ht
  exact .goto_of_frame (i := .ldMemStore x) (hframe.trans_fields (State.frame_bumpI ..)) (fun _ h => h) nofun _

theorem footprint_ldMemLoad (x : Nibble) (s : State) : ∃ t, exec (.ldMemLoad x) s = .next t ∧ Footprint (.ldMemLoad x) s t := by
  refine footprint_orRaise fun bs hbs => ?_
  obtain ⟨-, rfl⟩ := State.memRead_eq_some.mp hbs
  have hlen := s.mem.length_readBytes s.i.toNat (x.toNat + 1)
  exact .goto (i := .ldMemLoad x) ((s.frame_loadV hlen).trans_fields (State.frame_bumpI ..)) (by simp) _

/-- Every instruction answers a state, and differs from it in its footprint only (30_encoding.md R72). -/
theorem exec_footprint (i : Instr) (s : State) : ∃ t, exec i s = .next t ∧ Footprint i s t := by
  cases i with
  | cls => exact footprint_next (.goto (i := .cls) (s.frame_display 0 true) rfl _)
  | drw x y n => exact footprint_drw x y n s
  | ret =>
    refine footprint_orRaise fun p hp => .goto (i := .ret) (State.frame_pop hp) ?_ _
    obtain ⟨-, rfl⟩ := State.pop_eq_some.mp hp
    rfl
  | call nnn =>
    refine footprint_orRaise fun t ht => .goto (i := .call nnn) (State.frame_push ht) ?_ _
    obtain ⟨-, rfl⟩ := State.push_eq_some.mp ht
    rfl
  | jp nnn | jpV0 nnn => exact footprint_next (.goto (.refl ..) rfl _)
  | seImm x kk | sneImm x kk => exact footprint_next (.goto (.refl ..) rfl _)
  | seReg x y | sneReg x y => exact footprint_next (.goto (.refl ..) rfl _)
  | skp x | sknp x => exact footprint_orRaise fun k _ => .goto (.refl ..) rfl _
  | ldImm x kk | addImm x kk =>
    exact footprint_next (.advance (s.frame_setV x _) rfl)
  | ldReg x y | orReg x y | andReg x y | xorReg x y =>
    exact footprint_next (.advance (s.frame_setV x _) rfl)
  | addReg x y | sub x y | shr x y | subn x y | shl x y =>
    exact footprint_next (.advance (s.frame_writeResultAndFlag x _ _) (s.writeResultAndFlag_mem ..))
  | rnd x kk =>
    exact footprint_next (.advance ((s.frame_draws _).trans_regs (State.frame_setV _ x _)) rfl)
  | ldI _ | addI _ => exact footprint_next (.advance (s.frame_setI _) rfl)
  | ldF x => exact footprint_orRaise fun a _ => .goto (i := .ldF x) (s.frame_setI a) rfl _
  | ldB x =>
    refine footprint_orRaise fun t ht => .goto_of_frame (i := .ldB x) (State.frame_memWrite ht) (fun _ h => h) nofun _
  | ldMemStore x => exact footprint_ldMemStore x s
  | ldMemLoad x => exact footprint_ldMemLoad x s
  | ldVxDT x =>
    exact footprint_next (.advance (s.frame_setV x _) rfl)
  | ldVxK x =>
    simp only [exec, execLdVxK]
    split
    · exact footprint_next ⟨(s.frame_waitKey x).mono (by simp) (by simp) (by simp), fun _ => rfl⟩
    · exact footprint_next (.advance (s.frame_setV x _) rfl)
  | ldDTVx x => exact footprint_next (.advance (s.frame_dt _) rfl)
  | ldSTVx x => exact footprint_next (.advance (s.frame_st _) rfl)

end Sys2Proof.Machine
end

section
/-! PROOF. The writer lists of 10_state.md and 20_memory.md, and that a step always answers a state: all read off the footprints. -/

namespace Sys2Proof.Machine

theorem footprint_of_exec {i : Instr} {s t : State} (h : exec i s = .next t) : Footprint i s t := by
  obtain ⟨u, hu, hf⟩ := exec_footprint i s
  obtain rfl : u = t := by simpa [hu] using h
  exact hf

/-- Settles O10: a fetch that stops answers a state of its own, and every instruction answers one. -/
theorem stepAlwaysAnswersAState : Obligations.StepAlwaysAnswersAState := by
  unfold Obligations.StepAlwaysAnswersAState
  intro s
  cases hf : s.fetch with
  | stop t => exact ⟨t, step_eq_next.mpr (.inl hf)⟩
  | run i =>
    obtain ⟨t, ht, -⟩ := exec_footprint i s
    exact ⟨t, step_eq_next.mpr (.inr ⟨i, hf, ht⟩)⟩

/-- Settles O44: no other instruction has a byte of memory in its footprint. -/
theorem onlyFx33AndFx55WriteMemory : Obligations.OnlyFx33AndFx55WriteMemory := by
  unfold Obligations.OnlyFx33AndFx55WriteMemory
  intro i s t h hb hstore
  have hnone : bytesWritten i = 0 := by
    unfold bytesWritten
    split
    · exact absurd rfl (hb _)
    · exact absurd rfl (hstore _)
    · rfl
  exact (footprint_of_exec h).mem hnone

/-- Who may write an element: the constructors that name it in their footprint. -/
theorem mem_fieldsWritten {cfg : Config} {i : Instr} {f : Field} (h : f ∈ fieldsWritten cfg i) :
    (f = .fb ∨ f = .redraw) ∧ (i = .cls ∨ ∃ x y n, i = .drw x y n) ∨
    f = .stack ∧ (∃ a, i = .call a) ∨ f = .sp ∧ (i = .ret ∨ ∃ a, i = .call a) ∨
    f = .i ∧ ((∃ a, i = .ldI a) ∨ (∃ x, i = .addI x) ∨ (∃ x, i = .ldF x) ∨
      (cfg.loadStoreIncrementsI = true ∧ ∃ x, i = .ldMemStore x ∨ i = .ldMemLoad x)) ∨
    f = .draws ∧ (∃ x kk, i = .rnd x kk) ∨ f = .dt ∧ (∃ x, i = .ldDTVx x) ∨ f = .st ∧ (∃ x, i = .ldSTVx x) := by
  unfold fieldsWritten at h
  split at h <;> simp_all

/-- Settles O45: the framebuffer and the redraw flag are in no other footprint. -/
theorem onlyDisplayInstructionsTouchTheDisplay : Obligations.OnlyDisplayInstructionsTouchTheDisplay := by
  unfold Obligations.OnlyDisplayInstructionsTouchTheDisplay
  intro i s t h hcls hdrw
  have hframe := (footprint_of_exec h).frame
  have hnofb : Field.fb ∉ fieldsWritten s.cfg i := fun hmem => by simpa [hcls, hdrw] using mem_fieldsWritten hmem
  have hnoredraw : Field.redraw ∉ fieldsWritten s.cfg i := fun hmem => by simpa [hcls, hdrw] using mem_fieldsWritten hmem
  exact ⟨hframe.fb_eq (by simp [hnofb]), hframe.redraw_eq (by simp [hnoredraw])⟩

/-- Settles O46, one element at a time. -/
theorem stackAndTimersHaveTheirWriters : Obligations.StackAndTimersHaveTheirWriters := by
  unfold Obligations.StackAndTimersHaveTheirWriters
  intro i s t h
  have hframe := (footprint_of_exec h).frame
  refine ⟨fun hcall => ?_, fun hcall hret => ?_, fun hno => ?_, fun hno => ?_⟩
  · have hnone : Field.stack ∉ fieldsWritten s.cfg i := fun hmem => by simpa [hcall] using mem_fieldsWritten hmem
    exact hframe.stack_eq (by simp [hnone])
  · have hnone : Field.sp ∉ fieldsWritten s.cfg i := fun hmem => by simpa [hcall, hret] using mem_fieldsWritten hmem
    exact hframe.sp_eq (by simp [hnone])
  · have hnone : Field.dt ∉ fieldsWritten s.cfg i := fun hmem => by simpa [hno] using mem_fieldsWritten hmem
    exact hframe.dt_eq (by simp [hnone])
  · have hnone : Field.st ∉ fieldsWritten s.cfg i := fun hmem => by simpa [hno] using mem_fieldsWritten hmem
    exact hframe.st_eq (by simp [hnone])

/-- Settles O47: where I changed it was in the footprint, under the parameter for Fx55 and Fx65. -/
theorem indexRegisterHasItsWriters : Obligations.IndexRegisterHasItsWriters := by
  unfold Obligations.IndexRegisterHasItsWriters
  intro i s t h hne
  have hmem : Field.i ∈ fieldsWritten s.cfg i := by
    by_contra hnone
    exact hne ((footprint_of_exec h).frame.i_eq (by simp [hnone]))
  simpa using mem_fieldsWritten hmem

/-- Who may write VF: the flag instructions, and the others as their destination (10_state.md R23). -/
theorem regF_mem_regsWritten {i : Instr} (h : (0xF : Nibble) ∈ regsWritten i) :
    (∃ x y, i = .addReg x y ∨ i = .sub x y ∨ i = .shr x y ∨ i = .subn x y ∨ i = .shl x y) ∨ (∃ x y n, i = .drw x y n) ∨
    (∃ kk, i = .ldImm 0xF kk ∨ i = .addImm 0xF kk ∨ i = .rnd 0xF kk) ∨
    (∃ y, i = .ldReg 0xF y ∨ i = .orReg 0xF y ∨ i = .andReg 0xF y ∨ i = .xorReg 0xF y) ∨
    i = .ldVxDT 0xF ∨ i = .ldVxK 0xF ∨ i = .ldMemLoad 0xF := by
  cases i with
  | ldMemLoad x =>
    have hx : 15 ≤ x.toNat := mem_regsUpTo.mp h
    have hxF : x = 0xF := BitVec.eq_of_toNat_eq (show x.toNat = 15 by omega)
    simp [hxF]
  | _ => simp_all [regsWritten]

/-- Settles O48: VF is changed only by an instruction that has it among its registers. -/
theorem flagRegisterHasItsWriters : Obligations.FlagRegisterHasItsWriters := by
  unfold Obligations.FlagRegisterHasItsWriters
  intro i s t h hne
  have hmem : (0xF : Nibble) ∈ regsWritten i := by
    by_contra hnone
    exact hne ((footprint_of_exec h).frame.getV_eq hnone)
  exact regF_mem_regsWritten hmem

theorem redraw_of_exec_cls {s t : State} (h : exec .cls s = .next t) : t.redraw = true := by
  cases h; rfl

/-- A draw sets the redraw flag, or raises and leaves it. -/
theorem redraw_of_exec_drw {s t : State} {x y n : Nibble} (h : exec (.drw x y n) s = .next t) : t.redraw = true ∨ t.redraw = s.redraw := by
  rcases State.orRaise_eq_next.mp h with ⟨rows, -, rfl⟩ | ⟨-, rfl⟩
  · exact .inl rfl
  · exact .inr rfl

/-- No instruction clears the redraw flag: the two that write it set it (10_state.md R30). -/
theorem exec_keeps_redraw {i : Instr} {s t : State} (h : exec i s = .next t) (hs : s.redraw = true) : t.redraw = true := by
  by_cases hcls : i = .cls
  · exact redraw_of_exec_cls (hcls ▸ h)
  · by_cases hdrw : ∃ x y n, i = .drw x y n
    · obtain ⟨x, y, n, rfl⟩ := hdrw
      rcases redraw_of_exec_drw h with ht | ht
      · exact ht
      · exact ht.trans hs
    · have hsame := (onlyDisplayInstructionsTouchTheDisplay i s t h hcls fun x y n hi => hdrw ⟨x, y, n, hi⟩).2
      exact hsame.trans hs

/-- Every fetch that stops leaves the state as it is, up to the latch (30_encoding.md R72). -/
theorem State.frame_of_fetch_stop {s t : State} (h : s.fetch = .stop t) : Frame [] 0 0 [.latch] s t := by
  rcases State.fetch_eq_stop.mp h with ⟨-, rfl⟩ | ⟨-, -, rfl⟩ | ⟨-, -, -, rfl⟩ | ⟨-, -, w, -, -, rfl⟩
  · exact .refl ..
  all_goals exact s.frame_raise _ _

/-- Settles O43: a stopped fetch writes the latch alone, and no instruction has a key or a parameter in its footprint. -/
theorem stepLeavesKeysParametersAndRedraw : Obligations.StepLeavesKeysParametersAndRedraw := by
  unfold Obligations.StepLeavesKeysParametersAndRedraw
  intro s t h
  rcases step_eq_next.mp h with hstop | ⟨i, -, hi⟩
  · have hframe := State.frame_of_fetch_stop hstop
    exact ⟨hframe.keys_eq (by decide), hframe.cfg_eq (by decide), fun hs => (hframe.redraw_eq (by decide)).trans hs⟩
  · have hframe := (footprint_of_exec hi).frame
    have hnokeys : Field.keys ∉ fieldsWritten s.cfg i := fun hmem => by simpa using mem_fieldsWritten hmem
    have hnocfg : Field.cfg ∉ fieldsWritten s.cfg i := fun hmem => by simpa using mem_fieldsWritten hmem
    exact ⟨hframe.keys_eq (by simp [hnokeys]), hframe.cfg_eq (by simp [hnocfg]), exec_keeps_redraw hi⟩

end Sys2Proof.Machine
end

section
/-! PROOF. The invariant of the machine (10_state.md R24, R25, 41_control_flow.md R122): what each operation keeps, then what each instruction, each step
and each host operation keeps. -/

namespace Sys2Proof.Machine

/-- The invariant without its latch clause. -/
structure State.InBounds (s : State) : Prop where
  mem : s.mem.wf
  index : s.i.toNat ≤ 0xFFF
  pc : s.pc.toNat ≤ 0x10FE
  stack : ∀ j : Fin 16, s.stack[j.val].toNat ≤ 0x1000

/-- The latch clause of the invariant: a step's error, at this pc, and a fetch error where no opcode is recorded. -/
def State.LatchFits (s : State) : Prop :=
  ∀ l ∈ s.latch, l.error ≠ .programTooLarge ∧ l.pc = s.pc ∧ (l.opcode = none → l.error = .outOfBounds)

theorem State.inv_iff {s : State} : s.Inv ↔ s.InBounds ∧ s.LatchFits :=
  ⟨fun ⟨hmem, hi, hpc, hstack, hlatch⟩ => ⟨⟨hmem, hi, hpc, hstack⟩, hlatch⟩,
    fun ⟨⟨hmem, hi, hpc, hstack⟩, hlatch⟩ => ⟨hmem, hi, hpc, hstack, hlatch⟩⟩

/-! ### The bounds under each operation -/

/-- A state that agrees on memory, I, pc and the stack is as much in bounds. -/
theorem State.InBounds.congr {s t : State} (h : s.InBounds) (hm : t.mem = s.mem) (hi : t.i = s.i) (hpc : t.pc = s.pc)
    (hst : t.stack = s.stack) : t.InBounds :=
  ⟨hm ▸ h.mem, hi ▸ h.index, hpc ▸ h.pc, hst ▸ h.stack⟩

theorem State.InBounds.goto {s : State} (h : s.InBounds) {p : Word} (hp : p.toNat ≤ 0x10FE) : (s.goto p).InBounds :=
  ⟨h.mem, h.index, hp, h.stack⟩

theorem State.InBounds.advance {s : State} (h : s.InBounds) (hpc : s.pc.toNat ≤ 0xFFE) : s.advance.InBounds :=
  h.goto (by bv_omega)

theorem State.InBounds.skipIf {s : State} (h : s.InBounds) (hpc : s.pc.toNat ≤ 0xFFE) (c : Bool) : (s.skipIf c).InBounds :=
  h.goto (by cases c <;> simp <;> bv_omega)

theorem State.InBounds.setV {s : State} (h : s.InBounds) (x : Nibble) (b : Byte) : (s.setV x b).InBounds :=
  h.congr rfl rfl rfl rfl

theorem State.InBounds.writeResultAndFlag {s : State} (h : s.InBounds) (x : Nibble) (r : Byte) (f : Bool) :
    (s.writeResultAndFlag x r f).InBounds :=
  h.congr (by simp) (by simp) (by simp) (by simp)

theorem State.InBounds.setI {s : State} (h : s.InBounds) (n : Nat) : (s.setI n).InBounds :=
  ⟨h.mem, by rw [State.toNat_i_setI]; omega, h.pc, h.stack⟩

theorem State.InBounds.bumpI {s : State} (h : s.InBounds) (n : Nat) : (s.bumpI n).InBounds := by
  unfold State.bumpI
  split
  · exact h.setI _
  · exact h

theorem State.InBounds.memWrite {s t : State} (h : s.InBounds) {a : Nat} {bs : List Byte} (hw : s.memWrite a bs = some t) : t.InBounds := by
  obtain ⟨hr, rfl⟩ := State.memWrite_eq_some.mp hw
  exact ⟨Memory.wf_writeBytes h.mem a bs hr, h.index, h.pc, h.stack⟩

theorem State.pc_of_memWrite {s t : State} {a : Nat} {bs : List Byte} (hw : s.memWrite a bs = some t) : t.pc = s.pc := by
  obtain ⟨-, rfl⟩ := State.memWrite_eq_some.mp hw
  rfl

theorem State.InBounds.loadV {s : State} (h : s.InBounds) (bs : List Byte) : (s.loadV bs).InBounds :=
  h.congr (s.loadV_mem bs) (s.loadV_i bs) (s.loadV_pc bs) (s.loadV_stack bs)

theorem State.InBounds.push {s t : State} (h : s.InBounds) {w : Word} (hw : w.toNat ≤ 0x1000) (hp : s.push w = some t) : t.InBounds := by
  obtain ⟨hsp, rfl⟩ := State.push_eq_some.mp hp
  refine ⟨h.mem, h.index, h.pc, fun j => ?_⟩
  rw [Vector.getElem_set]
  split
  · exact hw
  · exact h.stack j

theorem State.InBounds.pop {s : State} {p : Word × State} (h : s.InBounds) (hp : s.pop = some p) : p.2.InBounds ∧ p.1.toNat ≤ 0x1000 := by
  obtain ⟨hsp, rfl⟩ := State.pop_eq_some.mp hp
  exact ⟨h.congr rfl rfl rfl rfl, h.stack ⟨s.sp.val - 1, by omega⟩⟩

theorem State.InBounds.raise {s : State} (h : s.InBounds) (e : Fault) (o : Option Word) : (s.raise e o).InBounds :=
  h.congr rfl rfl rfl rfl

/-! ### The bounds under each instruction -/

theorem inBounds_orRaise {α : Type} {s : State} {e : Fault} {i : Instr} {c : Option α} {go : α → State} (hb : s.InBounds)
    (hgo : ∀ a, c = some a → (go a).InBounds) : ∃ t, s.orRaise e i c go = .next t ∧ t.InBounds :=
  State.orRaise_answers hgo (hb.raise e _)

theorem inBounds_next {t : State} (h : t.InBounds) : ∃ t', (.next t : Outcome) = .next t' ∧ t'.InBounds :=
  ⟨t, rfl, h⟩

/-- The jump targets stay at or below 0x10FE, the sum of the largest nnn and the largest V0 (10_state.md R25). -/
theorem toNat_jump_le (nnn : Addr) : (nnn.setWidth 16 : Word).toNat ≤ 0x10FE := by
  bv_omega

theorem toNat_jumpV0_le (nnn : Addr) (b : Byte) : (nnn.setWidth 16 + b.setWidth 16 : Word).toNat ≤ 0x10FE := by
  bv_omega

theorem exec_answers_inBounds (i : Instr) {s : State} (hb : s.InBounds) (hpc : s.pc.toNat ≤ 0xFFE) :
    ∃ t, exec i s = .next t ∧ t.InBounds := by
  cases i with
  | cls => exact inBounds_next (.advance (hb.congr rfl rfl rfl rfl) hpc)
  | drw x y n => exact inBounds_orRaise hb fun rows _ => .advance (hb.congr rfl rfl rfl rfl) hpc
  | ret =>
    refine inBounds_orRaise hb fun p hp => ?_
    obtain ⟨ht, hw⟩ := hb.pop hp
    exact ht.goto (by omega)
  | call nnn =>
    have hw : (s.pc + 2).toNat ≤ 0x1000 := by bv_omega
    exact inBounds_orRaise hb fun t ht => (hb.push hw ht).goto (toNat_jump_le nnn)
  | jp nnn => exact inBounds_next (hb.goto (toNat_jump_le nnn))
  | jpV0 nnn => exact inBounds_next (hb.goto (toNat_jumpV0_le nnn _))
  | seImm x kk | sneImm x kk => exact inBounds_next (hb.skipIf hpc _)
  | seReg x y | sneReg x y => exact inBounds_next (hb.skipIf hpc _)
  | skp x | sknp x => exact inBounds_orRaise hb fun k _ => hb.skipIf hpc _
  | ldImm x kk | addImm x kk => exact inBounds_next ((hb.setV x _).advance hpc)
  | ldReg x y | orReg x y | andReg x y | xorReg x y => exact inBounds_next ((hb.setV x _).advance hpc)
  | addReg x y | sub x y | shr x y | subn x y | shl x y =>
    exact inBounds_next ((hb.writeResultAndFlag x _ _).advance (by simpa using hpc))
  | rnd x kk => exact inBounds_next (.advance (hb.congr rfl rfl rfl rfl) hpc)
  | ldI _ | addI _ => exact inBounds_next ((hb.setI _).advance hpc)
  | ldF x => exact inBounds_orRaise hb fun a _ => (hb.setI a).advance hpc
  | ldB x =>
    exact inBounds_orRaise hb fun t ht => (hb.memWrite ht).advance (State.pc_of_memWrite ht ▸ hpc)
  | ldMemStore x =>
    refine inBounds_orRaise hb fun t ht => ((hb.memWrite ht).bumpI _).advance ?_
    rw [State.bumpI_pc, State.pc_of_memWrite ht]
    exact hpc
  | ldMemLoad x =>
    exact inBounds_orRaise hb fun bs _ => ((hb.loadV bs).bumpI _).advance (by simpa using hpc)
  | ldVxDT x => exact inBounds_next ((hb.setV x _).advance hpc)
  | ldVxK x =>
    simp only [exec, execLdVxK]
    split
    · exact inBounds_next (hb.congr rfl rfl rfl rfl)
    · exact inBounds_next ((hb.setV x _).advance hpc)
  | ldDTVx x | ldSTVx x => exact inBounds_next (.advance (hb.congr rfl rfl rfl rfl) hpc)

/-! ### Each step -/

theorem step_keeps_inBounds {s t : State} (hb : s.InBounds) (h : step s = .next t) : t.InBounds := by
  rcases step_eq_next.mp h with hstop | ⟨i, hrun, hi⟩
  · rcases State.fetch_eq_stop.mp hstop with ⟨-, rfl⟩ | ⟨-, -, rfl⟩ | ⟨-, -, -, rfl⟩ | ⟨-, -, w, -, -, rfl⟩
    · exact hb
    all_goals exact hb.raise _ _
  · obtain ⟨-, -, w, hw, -⟩ := State.fetch_eq_run.mp hrun
    obtain ⟨u, hu, hub⟩ := exec_answers_inBounds i hb (State.fetchWord_eq_some.mp hw).1
    obtain rfl : u = t := by simpa [hu] using hi
    exact hub

theorem State.latchFits_raise (s : State) {e : Fault} {o : Option Word} (he : e ≠ .programTooLarge) (ho : o = none → e = .outOfBounds) :
    (s.raise e o).LatchFits := by
  rintro l ⟨⟩
  exact ⟨he, rfl, ho⟩

theorem State.latchFits_of_latch_eq_none {s : State} (h : s.latch = none) : s.LatchFits := by
  simp [State.LatchFits, h]

theorem step_keeps_latchFits {s t : State} (hl : s.LatchFits) (h : step s = .next t) : t.LatchFits := by
  rcases step_eq_next.mp h with hstop | ⟨i, hrun, hi⟩
  · rcases State.fetch_eq_stop.mp hstop with ⟨-, rfl⟩ | ⟨-, -, rfl⟩ | ⟨-, -, -, rfl⟩ | ⟨-, -, w, -, -, rfl⟩
    · exact hl
    all_goals exact s.latchFits_raise nofun (by simp)
  · obtain ⟨hnone, -⟩ := State.fetch_eq_run.mp hrun
    rcases exec_raises_or_keeps_latch hi with hsame | ⟨e, he, rfl⟩
    · exact State.latchFits_of_latch_eq_none (hsame.trans hnone)
    · exact s.latchFits_raise he nofun

/-- Settles O50: the bounds are kept operation by operation, and a latch is only ever written by an error of this step. -/
theorem stepKeepsTheInvariant : Obligations.StepKeepsTheInvariant := by
  unfold Obligations.StepKeepsTheInvariant
  intro s t hinv h
  obtain ⟨hb, hl⟩ := State.inv_iff.mp hinv
  exact State.inv_iff.mpr ⟨step_keeps_inBounds hb h, step_keeps_latchFits hl h⟩

/-- Settles O52: an instruction that leaves keyWait set and no error latched is an Fx0A that stays at its pc. -/
theorem stepKeepsTheWaitAtItsFx0A : Obligations.StepKeepsTheWaitAtItsFx0A := by
  unfold Obligations.StepKeepsTheWaitAtItsFx0A
  intro s t hwaits h x hx hnone
  rcases step_eq_next.mp h with hstop | ⟨i, hrun, hi⟩
  · rcases State.fetch_eq_stop.mp hstop with ⟨-, rfl⟩ | ⟨-, -, rfl⟩ | ⟨-, -, -, rfl⟩ | ⟨-, -, w, -, -, rfl⟩
    · exact hwaits x hx hnone
    all_goals simp at hnone
  · obtain ⟨hs, -, w, hw, hdec⟩ := State.fetch_eq_run.mp hrun
    rcases exec_clears_keyWait_or_waits hi (hnone.trans hs.symm) hs with hkw | ⟨y, rfl, -, rfl⟩
    · simp [hkw] at hx
    · obtain rfl : y = x := by simpa using hx
      exact ⟨w, hw, hdec⟩

/-! ### Reset and the host operations -/

theorem State.reset_inv : State.reset.Inv := by decide

/-- Settles O49: the invariant of this one state by evaluation, and its keyWait holds no register. -/
theorem resetMeetsTheInvariant : Obligations.ResetMeetsTheInvariant := by
  unfold Obligations.ResetMeetsTheInvariant
  refine ⟨State.reset_inv, ?_⟩
  rintro x ⟨⟩

/-- The font table a machine brings lies inside memory, so reset() leaves it in canonical form. -/
theorem State.hostReset_inv (s : State) : s.hostReset.Inv := by
  obtain ⟨-, hi, hpc, hstack, hlatch⟩ := State.reset_inv
  have hfont : fontBase + s.cfg.fontTable.toList.length ≤ memSize := by simp [fontBase, memSize]
  exact ⟨Memory.wf_writeBytes Memory.wf_nil fontBase _ hfont, hi, hpc, hstack, hlatch⟩

theorem State.setKey_inv {s : State} (h : s.Inv) (k : Nat) (p : Bool) : (s.setKey k p).2.Inv := by
  unfold State.setKey
  split <;> exact h

theorem programFits_iff {bytes : List Byte} : programFits bytes = true ↔ bytes.length ≤ 3584 := by
  rw [programFits, decide_eq_true_eq, programMax]

theorem State.load_inv {s : State} (h : s.Inv) (bytes : List Byte) : (s.load bytes).2.Inv := by
  unfold State.load
  split
  · next hfits =>
    obtain ⟨hmem, hrest⟩ := h
    have hr : programBase + bytes.length ≤ memSize := by
      have hlen := programFits_iff.mp hfits
      simp only [programBase, memSize]
      omega
    exact ⟨Memory.wf_writeBytes hmem programBase bytes hr, hrest⟩
  · exact h

theorem hostCall_keeps_inv (op : HostOp) {s : State} (h : s.Inv) : ∃ r t, hostCall op s = .next (r, t) ∧ t.Inv := by
  cases op with
  | step =>
    obtain ⟨t, ht⟩ := stepAlwaysAnswersAState s
    exact ⟨_, t, hostCall_step_eq_next.mpr ⟨ht, rfl⟩, stepKeepsTheInvariant s t h ht⟩
  | tick => exact ⟨_, _, rfl, h⟩
  | setKey k p => exact ⟨_, _, rfl, State.setKey_inv h k p⟩
  | consumeRedraw => exact ⟨_, _, rfl, h⟩
  | load bytes => exact ⟨_, _, rfl, State.load_inv h bytes⟩
  | readFramebuffer | readRedraw => exact ⟨_, _, rfl, h⟩
  | reset => exact ⟨_, _, rfl, s.hostReset_inv⟩

/-- A list of host operations goes on from the state its first one leaves. -/
theorem hostRun_cons {op : HostOp} {ops : List HostOp} {s t : State} {r : CallResult} (h : hostCall op s = .next (r, t)) :
    hostRun (op :: ops) s = hostRun ops t := by
  simp [hostRun, h]

/-- Settles O51, by induction on the schedule. -/
theorem everyHostScheduleKeepsTheInvariant : Obligations.EveryHostScheduleKeepsTheInvariant := by
  unfold Obligations.EveryHostScheduleKeepsTheInvariant
  intro ops
  induction ops with
  | nil => exact fun s h => ⟨s, rfl, h⟩
  | cons op ops ih =>
    intro s h
    obtain ⟨r, t, hcall, ht⟩ := hostCall_keeps_inv op h
    rw [hostRun_cons hcall]
    exact ih t ht

/-! ### Canonical memories -/

/-- Below every entry of a memory the contents of reset are read. -/
theorem Memory.read_of_lt {m : Memory} {a : Nat} (h : ∀ c ∈ m, a < c.1) : m.read a = Memory.resetByte a := by
  induction m with
  | nil => rfl
  | cons c m ih =>
    have hc : c.1 ≠ a := Nat.ne_of_gt (h c List.mem_cons_self)
    rw [Memory.read_cons, if_neg hc]
    exact ih fun d hd => h d (List.mem_cons_of_mem c hd)

/-- The first entry of a canonical memory is the lowest address that does not read as after reset. -/
theorem Memory.head_le_of_read_eq {c : Host.Cell} {m m' : Memory} (h : Memory.wf (c :: m)) (hread : ∀ a, Memory.read (c :: m) a = m'.read a) :
    ∃ d ∈ m', d.1 ≤ c.1 := by
  by_contra hno
  have hlt : ∀ d ∈ m', c.1 < d.1 := fun d hd => Nat.lt_of_not_le fun hle => hno ⟨d, hd, hle⟩
  have hsame := hread c.1
  rw [Memory.read_cons, if_pos rfl, Memory.read_of_lt hlt] at hsame
  exact (h.2 c List.mem_cons_self).2 hsame

theorem Memory.wf_tail {c : Host.Cell} {m : Memory} (h : Memory.wf (c :: m)) : m.wf ∧ ∀ d ∈ m, c.1 < d.1 :=
  ⟨⟨h.1.of_cons, fun d hd => h.2 d (List.mem_cons_of_mem c hd)⟩, (List.pairwise_cons.mp h.1).1⟩

theorem Memory.head_le_head {c d : Host.Cell} {m m' : Memory} (h : Memory.wf (c :: m)) (h' : Memory.wf (d :: m'))
    (hread : ∀ a, Memory.read (c :: m) a = Memory.read (d :: m') a) : d.1 ≤ c.1 := by
  obtain ⟨e, he, hle⟩ := Memory.head_le_of_read_eq h hread
  rcases List.mem_cons.mp he with rfl | he
  · exact hle
  · exact Nat.le_trans (Nat.le_of_lt ((Memory.wf_tail h').2 e he)) hle

/-- Settles O53, by induction on both lists: neither first address can be below the other, so the first entries agree, and then the rests read alike. -/
theorem canonicalMemoriesAreDeterminedByTheirReads : Obligations.CanonicalMemoriesAreDeterminedByTheirReads := by
  unfold Obligations.CanonicalMemoriesAreDeterminedByTheirReads
  intro m
  induction m with
  | nil =>
    intro m' _ hm' hread
    cases m' with
    | nil => rfl
    | cons d m' =>
      obtain ⟨c, hc, -⟩ := Memory.head_le_of_read_eq hm' fun a => (hread a).symm
      cases hc
  | cons c m ih =>
    intro m' hm hm' hread
    obtain ⟨htail, habove⟩ := Memory.wf_tail hm
    cases m' with
    | nil =>
      obtain ⟨d, hd, -⟩ := Memory.head_le_of_read_eq hm hread
      cases hd
    | cons d m' =>
      obtain ⟨htail', habove'⟩ := Memory.wf_tail hm'
      have hcd : c.1 = d.1 := Nat.le_antisymm (Memory.head_le_head hm' hm fun a => (hread a).symm) (Memory.head_le_head hm hm' hread)
      have hfirst : c = d := by
        have hbyte := hread c.1
        rw [Memory.read_cons, Memory.read_cons, if_pos rfl, if_pos hcd.symm] at hbyte
        exact Prod.ext hcd hbyte
      subst hfirst
      have hrest : ∀ a, Memory.read m a = Memory.read m' a := by
        intro a
        by_cases ha : c.1 = a
        · rw [← ha, Memory.read_of_lt habove, Memory.read_of_lt habove']
        · simpa only [Memory.read_cons, if_neg ha] using hread a
      rw [ih m' htail htail' hrest]

end Sys2Proof.Machine
end

section
/-! PROOF. What a step is (30_encoding.md R72) and what it returns (60_exceptions.md R221 to R225): the instruction executed, an error latched, or a wait. -/

namespace Sys2Proof.Machine

theorem State.fetch_eq_run_of_decode {s : State} {w : Word} {i : Instr} (hl : s.latch = none)
    (ho : s.cfg.oddPc = .execute ∨ s.pc.toNat % 2 = 0) (hw : s.fetchWord = some w) (hd : decodeWord w = some i) : s.fetch = .run i :=
  State.fetch_eq_run.mpr ⟨hl, State.oddPcFault_eq_false.mpr ho, w, hw, hd⟩

theorem step_of_fetch_run {s : State} {i : Instr} (h : s.fetch = .run i) : step s = exec i s := by
  simp [step, h]

theorem step_of_fetch_stop {s t : State} (h : s.fetch = .stop t) : step s = .next t :=
  step_eq_next.mpr (.inl h)

/-- Settles O6: the fetch answers that instruction to run. -/
theorem stepRunsTheDecodedInstruction : Obligations.StepRunsTheDecodedInstruction := by
  unfold Obligations.StepRunsTheDecodedInstruction
  intro s i hl ho hpc hd
  have hw : s.fetchWord = some (s.mem.read s.pc.toNat ++ s.mem.read (s.pc.toNat + 1)) := State.fetchWord_eq_some.mpr ⟨hpc, rfl⟩
  exact step_of_fetch_run (State.fetch_eq_run_of_decode hl ho hw hd)

theorem State.oddPcFault_eq_true {s : State} : s.oddPcFault = true ↔ s.cfg.oddPc = .fault ∧ s.pc.toNat % 2 = 1 := by
  rw [← Bool.not_eq_false, State.oddPcFault_eq_false, not_or, ← ne_eq, ← ne_eq, Nat.mod_two_ne_zero]
  cases s.cfg.oddPc <;> simp

/-- Settles O8, from the order of the checks before Execute (R225). -/
theorem oddPcAndUnsupportedOpcodeAreLatched : Obligations.OddPcAndUnsupportedOpcodeAreLatched := by
  unfold Obligations.OddPcAndUnsupportedOpcodeAreLatched
  constructor
  · intro s hl hpolicy hodd
    have ho : s.oddPcFault = true := State.oddPcFault_eq_true.mpr ⟨hpolicy, hodd⟩
    exact step_of_fetch_stop (State.fetch_eq_stop.mpr (.inr (.inl ⟨hl, ho, rfl⟩)))
  · intro s w hl hodd hw hd
    have ho : s.oddPcFault = false := State.oddPcFault_eq_false.mpr hodd
    exact step_of_fetch_stop (State.fetch_eq_stop.mpr (.inr (.inr (.inr ⟨hl, ho, w, hw, hd, rfl⟩))))

theorem step_of_latch {s : State} (h : s.latch ≠ none) : step s = .next s :=
  step_of_fetch_stop (State.fetch_eq_stop.mpr (.inl ⟨h, rfl⟩))

/-- Settles O9: the fetch stops where a latch is set, and the outcome is read from the latch. -/
theorem latchedStepReturnsTheErrorAndChangesNothing : Obligations.LatchedStepReturnsTheErrorAndChangesNothing := by
  unfold Obligations.LatchedStepReturnsTheErrorAndChangesNothing
  intro s l h
  have hne : s.latch ≠ none := by simp [h]
  exact hostCall_step_eq_next.mpr ⟨step_of_latch hne, (stepReturn_of_latch h).symm⟩

/-- The ways a step can raise an error, with what it records: a fetch at an odd pc or past 0xFFE records no opcode, the decode and the instruction record
the word fetched (60_exceptions.md R224). -/
theorem step_raises_cases {s t : State} (hl : s.latch = none) (h : step s = .next t) (ht : t.latch ≠ none) :
    (t = s.raise .outOfBounds none ∧ (0xFFE < s.pc.toNat ∨ (s.cfg.oddPc = .fault ∧ s.pc.toNat % 2 = 1))) ∨
    ∃ e w, t = s.raise e (some w) ∧ s.fetchWord = some w := by
  rcases step_eq_next.mp h with hstop | ⟨i, hrun, hi⟩
  · rcases State.fetch_eq_stop.mp hstop with ⟨hne, -⟩ | ⟨-, hodd, rfl⟩ | ⟨-, -, hw, rfl⟩ | ⟨-, -, w, hw, -, rfl⟩
    · exact absurd hl hne
    · exact .inl ⟨rfl, .inr (State.oddPcFault_eq_true.mp hodd)⟩
    · exact .inl ⟨rfl, .inl (State.fetchWord_eq_none.mp hw)⟩
    · exact .inr ⟨_, w, rfl, hw⟩
  · obtain ⟨-, -, w, hw, hd⟩ := State.fetch_eq_run.mp hrun
    rcases exec_raises_or_keeps_latch hi with hsame | ⟨e, -, rfl⟩
    · exact absurd (hsame.trans hl) ht
    · rw [decodedWordsEncodeBack w i hd]
      exact .inr ⟨e, w, rfl, hw⟩

/-- Settles O11: each error a step can raise is recorded by `State.raise`, which writes the latch alone, and a latched machine stays as it is. -/
theorem errorStepWritesOnlyTheLatch : Obligations.ErrorStepWritesOnlyTheLatch := by
  unfold Obligations.ErrorStepWritesOnlyTheLatch
  intro s t hl h ht
  refine ⟨step_of_latch ht, ?_⟩
  rcases step_raises_cases hl h ht with ⟨rfl, hwhy⟩ | ⟨e, w, rfl, hw⟩
  · exact ⟨_, rfl, hostCall_step_eq_next.mpr ⟨h, rfl⟩, rfl, .inl ⟨rfl, rfl, hwhy⟩⟩
  · exact ⟨_, rfl, hostCall_step_eq_next.mpr ⟨h, rfl⟩, rfl, .inr ⟨nofun, hw.symm⟩⟩

/-! ### Waiting -/

theorem exec_ldVxK_of_selectKey_eq_none {x : Nibble} {s : State} (h : s.selectKey = none) : exec (.ldVxK x) s = .next (s.waitKey x) := by
  simp [exec, execLdVxK, h]

theorem exec_ldVxK_of_selectKey_eq_some {x k : Nibble} {s : State} (h : s.selectKey = some k) :
    exec (.ldVxK x) s = .next (s.setV x (k.setWidth 8)).advance := by
  simp [exec, execLdVxK, h]

/-- A step that is waiting has run an Fx0A with no key pressed. -/
theorem step_waiting_cases {s t : State} (h : step s = .next t) (hl : t.latch = none) (hk : t.keyWait ≠ none) :
    ∃ x, s.fetch = .run (.ldVxK x) ∧ s.selectKey = none ∧ t = s.waitKey x := by
  rcases step_eq_next.mp h with hstop | ⟨i, hrun, hi⟩
  · rcases State.fetch_eq_stop.mp hstop with ⟨hne, rfl⟩ | ⟨-, -, rfl⟩ | ⟨-, -, -, rfl⟩ | ⟨-, -, w, -, -, rfl⟩
    · exact absurd hl hne
    all_goals simp at hl
  · have hs : s.latch = none := (State.fetch_eq_run.mp hrun).1
    rcases exec_clears_keyWait_or_waits hi (hl.trans hs.symm) hs with hnone | ⟨x, rfl, hsel, rfl⟩
    · exact absurd hnone hk
    · exact ⟨x, hrun, hsel, rfl⟩

/-- Settles O12: a step that returns Waiting has run an Fx0A with no key pressed, and a step that raised nothing and does not wait has completed. -/
theorem waitingMeansFx0AWithNoKey : Obligations.WaitingMeansFx0AWithNoKey := by
  unfold Obligations.WaitingMeansFx0AWithNoKey
  refine ⟨fun s t h => ?_, fun s x w hl ho hw hd hkeys => ?_, fun s t i w hl ho hw hd hi ht hkey => ?_⟩
  · obtain ⟨hstep, hret⟩ := hostCall_step_eq_next.mp h
    obtain ⟨hnone, hwait⟩ := stepReturn_eq_waiting.mp hret.symm
    obtain ⟨x, hrun, hsel, rfl⟩ := step_waiting_cases hstep hnone hwait
    obtain ⟨-, -, w, hw, hd⟩ := State.fetch_eq_run.mp hrun
    exact ⟨x, w, hw, hd, State.selectKey_eq_none.mp hsel, rfl⟩
  · have hstep : step s = .next (s.waitKey x) := by
      rw [step_of_fetch_run (State.fetch_eq_run_of_decode hl ho hw hd)]
      exact exec_ldVxK_of_selectKey_eq_none (State.selectKey_eq_none.mpr hkeys)
    have hret : stepReturn (s.waitKey x) = .waiting := stepReturn_eq_waiting.mpr ⟨hl, by simp⟩
    exact hostCall_step_eq_next.mpr ⟨hstep, hret.symm⟩
  · have hstep : step s = .next t := (step_of_fetch_run (State.fetch_eq_run_of_decode hl ho hw hd)).trans hi
    have hdone : t.keyWait = none := by
      rcases exec_clears_keyWait_or_waits hi (ht.trans hl.symm) hl with hnone | ⟨x, rfl, hsel, -⟩
      · exact hnone
      · obtain ⟨k, hk⟩ := hkey x rfl
        simp [State.selectKey_eq_none.mp hsel k] at hk
    exact hostCall_step_eq_next.mpr ⟨hstep, (stepReturn_eq_ok.mpr ⟨ht, hdone⟩).symm⟩

end Sys2Proof.Machine
end

section
/-! PROOF. Control transfer (41_control_flow.md R120 to R127): jumps, skips, CALL and RET, and nested calls. -/

namespace Sys2Proof.Machine

theorem exec_jp (nnn : Addr) (s : State) : exec (.jp nnn) s = .next (s.goto (nnn.setWidth 16)) := rfl

theorem exec_jpV0 (nnn : Addr) (s : State) : exec (.jpV0 nnn) s = .next (s.goto (nnn.setWidth 16 + (s.getV 0).setWidth 16)) := rfl

/-- Neither jump target overflows 16 bits. -/
theorem toNat_jump (nnn : Addr) : (nnn.setWidth 16 : Word).toNat = nnn.toNat := by
  bv_omega

theorem toNat_jumpV0 (nnn : Addr) (b : Byte) : (nnn.setWidth 16 + b.setWidth 16 : Word).toNat = nnn.toNat + b.toNat := by
  bv_omega

/-- Settles O17: one `goto`, to a target that 16 bits hold. -/
theorem jumpsComplete : Obligations.JumpsComplete := by
  unfold Obligations.JumpsComplete
  intro nnn s
  refine ⟨⟨_, completes_of_exec_goto (exec_jp nnn s) (.refl ..), toNat_jump nnn⟩, ?_⟩
  obtain ⟨hexec, hpc, hkw, hframe⟩ := completes_of_exec_goto (exec_jpV0 nnn s) (.refl [] 0 0 [] s)
  exact ⟨_, hexec, toNat_jumpV0 nnn (s.getV 0), hkw, hframe⟩

/-! ### Skips -/

/-- A skip goes to pc + 4 or pc + 2 and changes nothing else (30_encoding.md R73). -/
theorem completes_of_exec_skipIf {i : Instr} {s : State} {c : Bool} {target : Word} (h : exec i s = .next (s.skipIf c))
    (ht : (if c then s.pc + 4 else s.pc + 2) = target) : Completes i s (s.skipIf c) target [] 0 0 [] :=
  ht ▸ completes_of_exec_goto h (.refl ..)

theorem exec_seImm (x : Nibble) (kk : Byte) (s : State) : exec (.seImm x kk) s = .next (s.skipIf (s.getV x == kk)) := rfl

theorem exec_sneImm (x : Nibble) (kk : Byte) (s : State) : exec (.sneImm x kk) s = .next (s.skipIf (s.getV x != kk)) := rfl

theorem exec_seReg (x y : Nibble) (s : State) : exec (.seReg x y) s = .next (s.skipIf (s.getV x == s.getV y)) := rfl

theorem exec_sneReg (x y : Nibble) (s : State) : exec (.sneReg x y) s = .next (s.skipIf (s.getV x != s.getV y)) := rfl

/-- Settles O22: what each word decodes to, and one skip by the condition of its instruction. -/
theorem registerSkipsComplete : Obligations.RegisterSkipsComplete := by
  unfold Obligations.RegisterSkipsComplete
  intro x y kk s
  refine ⟨⟨everyOpcodeDecodesToItsInstruction (.seImm x kk), _, completes_of_exec_skipIf (exec_seImm x kk s) (by simp)⟩,
    ⟨everyOpcodeDecodesToItsInstruction (.sneImm x kk), _, completes_of_exec_skipIf (exec_sneImm x kk s) (by simp)⟩,
    ⟨everyOpcodeDecodesToItsInstruction (.seReg x y), fun n hn => ?_, _, completes_of_exec_skipIf (exec_seReg x y s) (by simp)⟩,
    everyOpcodeDecodesToItsInstruction (.sneReg x y), fun n hn => ?_, _, completes_of_exec_skipIf (exec_sneReg x y s) (by simp)⟩
  · exact (decodeWord_seRegFamily x y n).trans (decodeZeroNibble_eq_none.mpr hn)
  · exact (decodeWord_sneRegFamily x y n).trans (decodeZeroNibble_eq_none.mpr hn)

/-! ### CALL and RET -/

theorem exec_call (nnn : Addr) (s : State) :
    exec (.call nnn) s = s.orRaise .stackOverflow (.call nnn) (s.push (s.pc + 2)) fun t => t.goto (nnn.setWidth 16) := rfl

theorem exec_ret (s : State) : exec .ret s = s.orRaise .stackUnderflow .ret s.pop fun p => p.2.goto p.1 := rfl

/-- The state a CALL with a free slot leaves: the return address pushed, then the jump. -/
theorem exec_call_of_push {nnn : Addr} {s t : State} (h : s.push (s.pc + 2) = some t) :
    exec (.call nnn) s = .next (t.goto (nnn.setWidth 16)) := by
  rw [exec_call, h, State.orRaise_some]

theorem exec_ret_of_pop {s : State} {p : Word × State} (h : s.pop = some p) : exec .ret s = .next (p.2.goto p.1) := by
  rw [exec_ret, h, State.orRaise_some]

/-- Settles O18: the push writes the slot at SP, and the jump nothing of the stack. -/
theorem callPushesTheReturnAddress : Obligations.CallPushesTheReturnAddress := by
  unfold Obligations.CallPushesTheReturnAddress
  intro nnn s hsp
  have hpush : s.push (s.pc + 2) = some _ := State.push_eq_some.mpr ⟨hsp, rfl⟩
  refine ⟨_, completes_of_exec_goto (exec_call_of_push hpush) (State.frame_push hpush), rfl, fun j => ?_⟩
  simp only [State.goto_stack, Vector.getElem_set, eq_comm]

/-- The top entry of a stack of `j + 1` entries is slot `j`. -/
theorem State.pop_of_sp {s : State} {j : Fin 16} (h : s.sp.val = j.val + 1) : s.pop = some (s.stack[j.val], { s with sp := j.castSucc }) := by
  refine State.pop_eq_some.mpr ⟨by omega, ?_⟩
  have hj : s.sp.val - 1 = j.val := by omega
  simp [hj, Fin.castSucc, Fin.castAdd, Fin.castLE]

/-- Settles O19: the pop reads the slot below SP. -/
theorem returnPopsIntoPc : Obligations.ReturnPopsIntoPc := by
  unfold Obligations.ReturnPopsIntoPc
  intro j s hsp
  have hpop := State.pop_of_sp hsp
  exact ⟨_, completes_of_exec_goto (exec_ret_of_pop hpop) (State.frame_pop hpop), rfl⟩

/-- Settles O20: a full stack takes no push and an empty one gives no pop. -/
theorem stackLimitsRaise : Obligations.StackLimitsRaise := by
  unfold Obligations.StackLimitsRaise
  exact ⟨fun nnn s hsp => raises_of_exec_orRaise (exec_call nnn s) (State.push_eq_none.mpr (Fin.ext hsp)),
    fun s hsp => raises_of_exec_orRaise (exec_ret s) (State.pop_eq_none.mpr (Fin.ext hsp))⟩

/-! ### Nested calls -/

theorem execAll_cons {i : Instr} {is : List Instr} {s t : State} (h : exec i s = .next t) (hl : t.latch = none) :
    execAll (i :: is) s = execAll is t := by
  simp [execAll, h, hl]

theorem execAll_append {is js : List Instr} {s t : State} (h : execAll is s = some t) : execAll (is ++ js) s = execAll js t := by
  induction is generalizing s with
  | nil => cases h; rfl
  | cons i is ih =>
    simp only [execAll, List.cons_append] at h ⊢
    split at h
    · split at h
      · cases h
      · next hl => simpa [hl] using ih h
    · cases h

/-- After the calls of `l` the slots from SP on hold their return addresses in order, and those below SP are as before. -/
theorem execAll_calls (l : List Addr) (s : State) (hl : s.latch = none) (hsp : s.sp.val + l.length ≤ 16) :
    ∃ t, execAll (l.map Instr.call) s = some t ∧ t.sp.val = s.sp.val + l.length ∧
      (∀ j : Fin 16, j.val < s.sp.val → t.stack[j.val] = s.stack[j.val]) ∧
      (∀ j : Fin 16, s.sp.val ≤ j.val → j.val < s.sp.val + l.length →
        t.stack[j.val] = (s.pc :: l.map (BitVec.setWidth 16)).getD (j.val - s.sp.val) 0 + 2) ∧
      Frame [] 0 0 [.pc, .keyWait, .stack, .sp] s t := by
  induction l generalizing s with
  | nil => exact ⟨s, rfl, rfl, fun _ _ => rfl, fun j hj hj' => absurd hj' (Nat.not_lt.mpr hj), .refl ..⟩
  | cons a l ih =>
    rw [List.length_cons] at hsp
    obtain ⟨u, ⟨hexec, hpc, -, hframe⟩, husp, hustack⟩ := callPushesTheReturnAddress a s (by omega)
    have hul : u.latch = none := (hframe.latch_eq (by decide)).trans hl
    obtain ⟨t, hrun, htsp, hbelow, habove, hframe'⟩ := ih u hul (by omega)
    refine ⟨t, (execAll_cons hexec hul).trans hrun, ?_, fun j hj => ?_, fun j hj hj' => ?_, hframe.trans hframe'⟩
    · rw [htsp, husp, List.length_cons]; omega
    · rw [hbelow j (by omega), hustack j, if_neg (by omega)]
    · rw [List.length_cons] at hj'
      by_cases hlast : j.val = s.sp.val
      · rw [hbelow j (by omega), hustack j, if_pos hlast, hlast, Nat.sub_self, List.getD_cons_zero]
      · have hidx : j.val - s.sp.val = (j.val - u.sp.val) + 1 := by omega
        rw [habove j (by omega) (by omega), hidx, List.map_cons, List.getD_cons_succ, hpc]

/-- `k + 1` returns from a stack of `j + (k + 1)` entries end at the entry of slot `j`. -/
theorem execAll_rets (k : Nat) (j : Fin 16) (s : State) (hl : s.latch = none) (hsp : s.sp.val = j.val + (k + 1)) :
    ∃ t, execAll (List.replicate (k + 1) Instr.ret) s = some t ∧ t.pc = s.stack[j.val] ∧ t.sp.val = j.val ∧
      Frame [] 0 0 [.pc, .keyWait, .sp] s t := by
  induction k generalizing s with
  | zero =>
    obtain ⟨t, ⟨hexec, hpc, -, hframe⟩, htsp⟩ := returnPopsIntoPc j s hsp
    exact ⟨t, execAll_cons hexec ((hframe.latch_eq (by decide)).trans hl), hpc, htsp, hframe⟩
  | succ k ih =>
    have hlt := s.sp.isLt
    obtain ⟨u, ⟨hexec, -, -, hframe⟩, husp⟩ := returnPopsIntoPc ⟨j.val + (k + 1), by omega⟩ s hsp
    have hul : u.latch = none := (hframe.latch_eq (by decide)).trans hl
    obtain ⟨t, hrun, hpc, htsp, hframe'⟩ := ih u hul husp
    have hpc' : t.pc = s.stack[j.val] := by rw [hpc, hframe.stack_eq (by decide)]
    exact ⟨t, (execAll_cons hexec hul).trans hrun, hpc', htsp, hframe.trans hframe'⟩

/-- Settles O21: the calls fill the slots from SP on, and the last of the returns reads the slot of its own call. -/
theorem nestedCallsReturnInOrder : Obligations.NestedCallsReturnInOrder := by
  unfold Obligations.NestedCallsReturnInOrder
  intro l k s hl hsp hk
  obtain ⟨u, hcalls, husp, -, hslots, hframe⟩ := execAll_calls l s hl hsp
  let j : Fin 16 := ⟨s.sp.val + (l.length - 1 - k), by omega⟩
  have hjsp : u.sp.val = j.val + (k + 1) := by simp only [j]; omega
  obtain ⟨t, hrets, hpc, htsp, hframe'⟩ := execAll_rets k j u ((hframe.latch_eq (by decide)).trans hl) hjsp
  have hidx : j.val - s.sp.val = l.length - 1 - k := Nat.add_sub_cancel_left ..
  refine ⟨t, (execAll_append hcalls).trans hrets, ?_, htsp, hframe.trans (hframe'.mono (.refl _) (by omega) (by decide))⟩
  rw [hpc, hslots j (by simp [j]) (by simp only [j]; omega), hidx]

end Sys2Proof.Machine
end

section
/-! PROOF. The ALU and RND (42_alu.md R149 to R161): results modulo 256, and the flag of the instructions that write one. -/

namespace Sys2Proof.Machine

theorem exec_addImm (x : Nibble) (kk : Byte) (s : State) : exec (.addImm x kk) s = .next (s.setV x (s.getV x + kk)).advance := rfl

/-- Settles O24: addition of bytes is modulo 256, and Vx alone is written. -/
theorem addImmediateWrapsWithoutFlag : Obligations.AddImmediateWrapsWithoutFlag := by
  unfold Obligations.AddImmediateWrapsWithoutFlag
  intro x kk s
  refine ⟨_, completes_of_exec_setV_advance (exec_addImm x kk s), ?_⟩
  rw [State.getV_setV_advance_self]
  exact BitVec.toNat_add ..

/-! ### Bitwise operations -/

theorem exec_orReg (x y : Nibble) (s : State) : exec (.orReg x y) s = .next (s.setV x (s.getV x ||| s.getV y)).advance := rfl

theorem exec_andReg (x y : Nibble) (s : State) : exec (.andReg x y) s = .next (s.setV x (s.getV x &&& s.getV y)).advance := rfl

theorem exec_xorReg (x y : Nibble) (s : State) : exec (.xorReg x y) s = .next (s.setV x (s.getV x ^^^ s.getV y)).advance := rfl

/-- Settles O25: each is one register write, of a byte that is the operation bit by bit. -/
theorem bitwiseOperationsComplete : Obligations.BitwiseOperationsComplete := by
  unfold Obligations.BitwiseOperationsComplete
  intro x y s
  refine ⟨⟨_, completes_of_exec_setV_advance (exec_orReg x y s), fun b _ => ?_⟩,
    ⟨_, completes_of_exec_setV_advance (exec_andReg x y s), fun b _ => ?_⟩,
    _, completes_of_exec_setV_advance (exec_xorReg x y s), fun b _ => ?_⟩
  · rw [State.getV_setV_advance_self, BitVec.getLsbD_or]
  · rw [State.getV_setV_advance_self, BitVec.getLsbD_and]
  · rw [State.getV_setV_advance_self, BitVec.getLsbD_xor]

/-! ### The instructions with a flag -/

theorem flagByte_eq {f : Bool} {p : Prop} [Decidable p] (h : f = true ↔ p) : flagByte f = if p then 1 else 0 := by
  simp [flagByte, h]

/-- WriteResultAndFlag leaves result and flag where R149 says, in either VfOrder. -/
theorem State.holds_writeResultAndFlag (s : State) (x : Nibble) (r : Byte) {f : Bool} {p : Prop} [Decidable p] (h : f = true ↔ p) :
    HoldsResultAndFlag s (s.writeResultAndFlag x r f).advance x r p := by
  have hget : ∀ q, (s.writeResultAndFlag x r f).advance.getV q = _ := fun q => s.writeResultAndFlag_getV x q r f
  refine ⟨fun hx => ⟨?_, ?_⟩, fun hx hord => ?_, fun hx hord => ?_⟩
  · have hxF : regF ≠ x := Ne.symm hx
    rw [hget]
    cases s.cfg.vfOrder <;> simp [hxF]
  · have hxF : x ≠ regF := hx
    rw [hget, ← flagByte_eq h]
    cases s.cfg.vfOrder with
    | flagLast => exact if_pos rfl
    | resultLast => exact (if_neg hxF).trans (if_pos rfl)
  · rw [hget, hord, ← flagByte_eq h]
    exact if_pos rfl
  · rw [hget, hord]
    exact if_pos hx

/-- What an instruction of the form WriteResultAndFlag and advance completes as, and what it leaves in Vx and VF. -/
theorem completes_with_result_and_flag {i : Instr} {s : State} {x : Nibble} {r r' : Byte} {f : Bool} {p : Prop} [Decidable p]
    (h : exec i s = .next (s.writeResultAndFlag x r f).advance) (hr : r = r') (hf : f = true ↔ p) :
    ∃ t, Completes i s t (s.pc + 2) [x, 0xF] 0 0 [] ∧ HoldsResultAndFlag s t x r' p :=
  ⟨_, completes_of_exec_advance h (s.writeResultAndFlag_pc ..) (s.frame_writeResultAndFlag ..), hr ▸ s.holds_writeResultAndFlag x r hf⟩

theorem exec_addReg (x y : Nibble) (s : State) : exec (.addReg x y) s =
    .next (s.writeResultAndFlag x ((sum9 (s.getV x) (s.getV y)).setWidth 8) (carryOut (s.getV x) (s.getV y))).advance := rfl

theorem exec_sub (x y : Nibble) (s : State) : exec (.sub x y) s =
    .next (s.writeResultAndFlag x (s.getV x - s.getV y) (noBorrow (s.getV x) (s.getV y))).advance := rfl

theorem exec_subn (x y : Nibble) (s : State) : exec (.subn x y) s =
    .next (s.writeResultAndFlag x (s.getV y - s.getV x) (noBorrow (s.getV y) (s.getV x))).advance := rfl

theorem exec_shr (x y : Nibble) (s : State) : exec (.shr x y) s =
    .next (s.writeResultAndFlag x (s.getV x >>> 1) (shiftedOutRight (s.getV x))).advance := rfl

theorem exec_shl (x y : Nibble) (s : State) : exec (.shl x y) s =
    .next (s.writeResultAndFlag x (s.getV x <<< 1) (shiftedOutLeft (s.getV x))).advance := rfl

/-- Nine bits hold the sum of two bytes (R156). -/
theorem toNat_sum9 (a b : Byte) : (sum9 a b).toNat = a.toNat + b.toNat := by
  unfold sum9
  bv_omega

theorem setWidth_sum9 (a b : Byte) : (sum9 a b).setWidth 8 = BitVec.ofNat 8 (a.toNat + b.toNat) := by
  apply BitVec.eq_of_toNat_eq
  rw [BitVec.toNat_setWidth, toNat_sum9, BitVec.toNat_ofNat]

/-- The top bit of a word of `w + 1` bits is set from 2 ^ w on. -/
theorem getLsbD_top_iff {w : Nat} (a : BitVec (w + 1)) : a.getLsbD w = true ↔ 2 ^ w ≤ a.toNat := by
  rw [show a.getLsbD w = a.msb by simp [BitVec.msb_eq_getLsbD_last], BitVec.msb_eq_decide]
  simp

theorem carryOut_iff (a b : Byte) : carryOut a b = true ↔ 255 < a.toNat + b.toNat := by
  unfold carryOut
  rw [getLsbD_top_iff, toNat_sum9]
  omega

theorem noBorrow_iff (a b : Byte) : noBorrow a b = true ↔ b.toNat ≤ a.toNat := by
  simp [noBorrow]

theorem sub_eq_ofNat (a b : Byte) : a - b = BitVec.ofNat 8 (a.toNat + 256 - b.toNat) := by
  bv_omega

theorem shiftRight_eq_ofNat (a : Byte) : a >>> 1 = BitVec.ofNat 8 (a.toNat / 2) := by
  have ha := a.isLt
  apply BitVec.eq_of_toNat_eq
  rw [BitVec.toNat_ushiftRight, Nat.shiftRight_eq_div_pow, BitVec.toNat_ofNat]
  omega

theorem shiftLeft_eq_ofNat (a : Byte) : a <<< 1 = BitVec.ofNat 8 (2 * a.toNat) := by
  apply BitVec.eq_of_toNat_eq
  rw [BitVec.toNat_shiftLeft, Nat.shiftLeft_eq, BitVec.toNat_ofNat, Nat.pow_one, Nat.mul_comm]

theorem shiftedOutRight_iff (a : Byte) : shiftedOutRight a = true ↔ a.toNat % 2 = 1 := by
  simp [shiftedOutRight, BitVec.getLsbD, Nat.testBit_zero]

theorem shiftedOutLeft_iff (a : Byte) : shiftedOutLeft a = true ↔ 128 ≤ a.toNat :=
  getLsbD_top_iff a

/-- Settles O26: the low byte of the nine-bit sum, and its top bit. -/
theorem addReportsItsCarry : Obligations.AddReportsItsCarry := by
  unfold Obligations.AddReportsItsCarry
  intro x y s
  exact ⟨everyOpcodeDecodesToItsInstruction (.addReg x y),
    completes_with_result_and_flag (exec_addReg x y s) (setWidth_sum9 ..) (carryOut_iff ..)⟩

/-- Settles O27: one instruction with the operands exchanged for the other. -/
theorem subtractionsReportNoBorrow : Obligations.SubtractionsReportNoBorrow := by
  unfold Obligations.SubtractionsReportNoBorrow
  intro x y s
  exact ⟨⟨everyOpcodeDecodesToItsInstruction (.sub x y),
      completes_with_result_and_flag (exec_sub x y s) (sub_eq_ofNat ..) (noBorrow_iff ..)⟩,
    everyOpcodeDecodesToItsInstruction (.subn x y), completes_with_result_and_flag (exec_subn x y s) (sub_eq_ofNat ..) (noBorrow_iff ..)⟩

/-- Settles O28: the shifts in numbers, and bit 0 or bit 7 as the flag. -/
theorem shiftsReportTheBitShiftedOut : Obligations.ShiftsReportTheBitShiftedOut := by
  unfold Obligations.ShiftsReportTheBitShiftedOut
  intro x y s
  exact ⟨⟨everyOpcodeDecodesToItsInstruction (.shr x y),
      completes_with_result_and_flag (exec_shr x y s) (shiftRight_eq_ofNat _) (shiftedOutRight_iff _)⟩,
    everyOpcodeDecodesToItsInstruction (.shl x y),
    completes_with_result_and_flag (exec_shl x y s) (shiftLeft_eq_ofNat _) (shiftedOutLeft_iff _)⟩

/-! ### RND -/

theorem exec_rnd (x : Nibble) (kk : Byte) (s : State) :
    exec (.rnd x kk) s = .next ({ s with draws := s.draws + 1 }.setV x (Config.randomByte s.draws &&& kk)).advance := rfl

/-- Settles O29: the masked byte has no bit that kk has not. -/
theorem randomByteIsMasked : Obligations.RandomByteIsMasked := by
  unfold Obligations.RandomByteIsMasked
  intro x kk s
  have hframe : Frame [x] 0 0 [.draws] s ({ s with draws := s.draws + 1 }.setV x (Config.randomByte s.draws &&& kk)) :=
    (s.frame_draws _).trans_regs (State.frame_setV _ x _)
  refine ⟨_, completes_of_exec_advance (exec_rnd x kk s) rfl hframe, rfl, State.getV_setV_advance_self _ x _, fun b _ hb => ?_⟩
  rw [State.getV_setV_advance_self, BitVec.getLsbD_and, hb, Bool.and_false]

end Sys2Proof.Machine
end

section
/-! PROOF. The index register and memory instructions (43_index_memory.md R181 to R185): where I goes, what is stored, loaded and loaded back, and that
the next fetch sees what was just stored (20_memory.md R62). -/

namespace Sys2Proof.Machine

theorem exec_addI (x : Nibble) (s : State) : exec (.addI x) s = .next (s.setI (s.i.toNat + (s.getV x).toNat)).advance := rfl

/-- Settles O31: I keeps the low 12 bits of the sum. -/
theorem addIndexWrapsAt12Bits : Obligations.AddIndexWrapsAt12Bits := by
  unfold Obligations.AddIndexWrapsAt12Bits
  intro x s
  exact ⟨_, completes_of_exec_advance (exec_addI x s) rfl (s.frame_setI _), s.toNat_i_setI _⟩

/-! ### The font address -/

theorem exec_ldF (x : Nibble) (s : State) :
    exec (.ldF x) s = s.orRaise .outOfBounds (.ldF x) (fontAddress s.cfg.fontIndex (s.getV x)) fun a => (s.setI a).advance := rfl

/-- LD F with a font address leaves I there; every font address is below 4096, so it is not cut off. -/
theorem completes_ldF {x : Nibble} {s : State} {a : Nat} (h : fontAddress s.cfg.fontIndex (s.getV x) = some a) (ha : a < 4096) :
    ∃ t, Completes (.ldF x) s t (s.pc + 2) [] 0 0 [.i] ∧ t.i.toNat = a := by
  have hexec : exec (.ldF x) s = .next (s.setI a).advance := by rw [exec_ldF, h, State.orRaise_some]
  exact ⟨_, completes_of_exec_advance hexec rfl (s.frame_setI a), (s.toNat_i_setI a).trans (Nat.mod_eq_of_lt ha)⟩

/-- For the digits 0 to 15 the policies agree, and the linear one goes on along the line. -/
theorem fontAddress_eq_linear {p : FontIndexPolicy} {d : Byte} (h : p = .linear ∨ d.toNat ≤ 15) : fontAddress p d = some (0x050 + 5 * d.toNat) := by
  cases p with
  | linear => rfl
  | lowNibble =>
    have hd : d.toNat % 16 = d.toNat := Nat.mod_eq_of_lt (Nat.lt_succ_of_le (h.resolve_left nofun))
    simp [fontAddress, fontBase, hd]
  | fault =>
    have hd : d.toNat ≤ 15 := h.resolve_left nofun
    exact if_neg (Nat.not_lt.mpr hd)

/-- Settles O32: the address by the policy, or none and the error. -/
theorem fontAddressFollowsItsPolicy : Obligations.FontAddressFollowsItsPolicy := by
  unfold Obligations.FontAddressFollowsItsPolicy
  intro x s
  have hv := (s.getV x).isLt
  refine ⟨fun h => completes_ldF (fontAddress_eq_linear h) (by omega), fun h => completes_ldF ?_ (by omega), fun h hbig => ?_⟩
  · rw [h]; rfl
  · exact raises_of_exec_orRaise (exec_ldF x s) (by rw [h]; exact if_pos hbig)

/-! ### Store and load of V0 to Vx -/

theorem State.toNat_bumpI_i (s : State) (n : Nat) :
    (s.bumpI n).i.toNat = if s.cfg.loadStoreIncrementsI = true then (s.i.toNat + n) % 4096 else s.i.toNat := by
  unfold State.bumpI
  split
  · exact s.toNat_i_setI _
  · rfl

/-- Whatever the parameter says, only I may differ. -/
theorem State.frame_bumpI_le (s : State) (n : Nat) : Frame [] 0 0 [.i] s (s.bumpI n) :=
  (s.frame_bumpI n).mono (.refl _) (by omega) (by split <;> simp)

theorem exec_ldMemStore (x : Nibble) (s : State) : exec (.ldMemStore x) s =
    s.orRaise .outOfBounds (.ldMemStore x) (s.memWrite s.i.toNat (s.firstV (x.toNat + 1))) fun t => (t.bumpI (x.toNat + 1)).advance := rfl

theorem exec_ldMemLoad (x : Nibble) (s : State) : exec (.ldMemLoad x) s =
    s.orRaise .outOfBounds (.ldMemLoad x) (s.memRead s.i.toNat (x.toNat + 1)) fun bs => ((s.loadV bs).bumpI (x.toNat + 1)).advance := rfl

/-- Settles O34: the checked write of V0 to Vx, then the move of I. -/
theorem registersAreStored : Obligations.RegistersAreStored := by
  unfold Obligations.RegistersAreStored
  intro x s
  have hlen := s.length_firstV x
  refine ⟨fun hin => ?_, fun hout => ?_⟩
  · have hw : s.memWrite s.i.toNat (s.firstV (x.toNat + 1)) = some _ :=
      State.memWrite_eq_some.mpr ⟨by rw [hlen, memSize]; omega, rfl⟩
    have hframe := State.frame_memWrite hw
    rw [hlen] at hframe
    have hexec := exec_ldMemStore x s
    rw [hw, State.orRaise_some] at hexec
    refine ⟨_, completes_of_exec_advance hexec (State.bumpI_pc ..) (hframe.trans_fields (State.frame_bumpI_le ..)),
      fun j hj => ?_, State.toNat_bumpI_i ..⟩
    rw [State.advance_mem, State.bumpI_mem, Memory.read_writeBytes_add _ _ (by omega)]
    exact s.getD_firstV x j hj
  · exact raises_of_exec_memWrite (exec_ldMemStore x s) (by rw [hlen, memSize]; omega)

/-- Settles O35: the checked read of x + 1 bytes, each into its register, then the move of I. -/
theorem registersAreLoaded : Obligations.RegistersAreLoaded := by
  unfold Obligations.RegistersAreLoaded
  intro x s
  refine ⟨fun hin => ?_, fun hout => ?_⟩
  · have hr : s.memRead s.i.toNat (x.toNat + 1) = some _ := State.memRead_eq_some.mpr ⟨by rw [memSize]; omega, rfl⟩
    have hexec := exec_ldMemLoad x s
    rw [hr, State.orRaise_some] at hexec
    have hframe := s.frame_loadV (s.mem.length_readBytes s.i.toNat (x.toNat + 1))
    refine ⟨_, completes_of_exec_advance hexec (State.bumpI_pc ..) (hframe.trans_fields (State.frame_bumpI_le ..)),
      fun j hj => ?_, State.toNat_bumpI_i ..⟩
    rw [State.advance_getV, State.bumpI_getV, State.getV_loadV]
    exact Memory.getD_readBytes _ _ _ _ _ (by omega)
  · exact raises_of_exec_orRaise (exec_ldMemLoad x s) (State.memRead_eq_none.mpr (by rw [memSize]; omega))

/-- Settles O36: the load reads the bytes the store wrote. -/
theorem storedRegistersLoadBack : Obligations.StoredRegistersLoadBack := by
  unfold Obligations.StoredRegistersLoadBack
  intro x s t u hin hstore hmem hi
  obtain ⟨t', ⟨hexec, -⟩, hstored, -⟩ := (registersAreStored x s).1 hin
  obtain rfl : t' = t := by simpa [hexec] using hstore
  obtain ⟨w, ⟨hload, -⟩, hloaded, -⟩ := (registersAreLoaded x u).1 (hi ▸ hin)
  refine ⟨w, hload, fun j hj => ?_⟩
  rw [hloaded j hj, hmem, hi, hstored j hj]

/-! ### The fetch after a store -/

/-- Where the next instruction lies in memory, the fetch reads its two bytes. -/
theorem State.fetchWord_of_pc_add_two {s t : State} (h : s.pc.toNat ≤ 0xFFC) (ht : t.pc = s.pc + 2) :
    t.fetchWord = some (t.mem.read (s.pc.toNat + 2) ++ t.mem.read (s.pc.toNat + 3)) := by
  have hpc : t.pc.toNat = s.pc.toNat + 2 := by rw [ht]; bv_omega
  exact State.fetchWord_eq_some.mpr ⟨by omega, by rw [hpc]⟩

/-- The digit of weight 10 ^ (2 - k), as the quotient it is stored as. -/
theorem toNat_getD_decimalDigits (b : Byte) {k : Nat} (hk : k < 3) : ((decimalDigits b).getD k 0).toNat = b.toNat / 10 ^ (2 - k) % 10 := by
  obtain ⟨hhundreds, htens, hunits⟩ := toNat_decimalDigits b
  have hb := b.isLt
  interval_cases k
  · rw [hhundreds]; omega
  · rw [htens]; omega
  · rw [hunits]; omega

/-- Settles O37: the fetch reads memory as the store left it. -/
theorem storedCodeIsFetchedNext : Obligations.StoredCodeIsFetchedNext := by
  unfold Obligations.StoredCodeIsFetchedNext
  intro x s hpc
  refine ⟨fun hin => ?_, fun hin => ?_⟩
  · obtain ⟨t, ⟨hexec, htpc, -, -, hkept, -⟩, hstored, -⟩ := (registersAreStored x s).1 hin
    refine ⟨t, hexec, htpc, _, _, State.fetchWord_of_pc_add_two hpc htpc, fun j hj hat => ?_, fun j hj hat => ?_, fun hno => ?_, fun hno => ?_⟩
    · rw [← hat, hstored j hj]
    · rw [← hat, hstored j hj]
    · exact hkept _ (by omega)
    · exact hkept _ (by omega)
  · have hr : s.i.toNat + (decimalDigits (s.getV x)).length ≤ memSize := by rw [length_decimalDigits, memSize]; omega
    obtain ⟨hexec, htpc, -, -, hkept, -⟩ := completes_of_exec_memWrite_advance (exec_ldB x s) hr
    have hstored := fun k (hk : k < 3) => s.mem.read_writeBytes_add s.i.toNat (bs := decimalDigits (s.getV x)) hk
    refine ⟨_, hexec, htpc, _, _, State.fetchWord_of_pc_add_two hpc htpc, fun k hk hat => ?_, fun k hk hat => ?_, fun hno => ?_, fun hno => ?_⟩
    · rw [← hat, State.advance_mem, hstored k hk, toNat_getD_decimalDigits _ hk]
    · rw [← hat, State.advance_mem, hstored k hk, toNat_getD_decimalDigits _ hk]
    · exact hkept _ (by rw [length_decimalDigits]; omega)
    · exact hkept _ (by rw [length_decimalDigits]; omega)

end Sys2Proof.Machine
end

section
/-! PROOF. Keys and timers (44_keys_timers.md R199 to R205): the key skips, the timer moves, and the wait for a key with the host that ends it. -/

namespace Sys2Proof.Machine

/-! ### Key skips -/

theorem exec_skp (x : Nibble) (s : State) :
    exec (.skp x) s = s.orRaise .invalidKey (.skp x) (keyIndexOf s.cfg.keyIndex (s.getV x)) fun k => s.skipIf (s.key k) := rfl

theorem exec_sknp (x : Nibble) (s : State) :
    exec (.sknp x) s = s.orRaise .invalidKey (.sknp x) (keyIndexOf s.cfg.keyIndex (s.getV x)) fun k => s.skipIf (!s.key k) := rfl

/-- A byte that names a key names the one of its low nibble, under either policy (R199). -/
theorem keyIndexOf_eq_some {p : KeyIndexPolicy} {b : Byte} {k : Nibble} (hk : k.toNat = b.toNat % 16) (h : p = .lowNibble ∨ b.toNat ≤ 15) :
    keyIndexOf p b = some k := by
  have hlow : b.setWidth 4 = k := BitVec.eq_of_toNat_eq (by rw [BitVec.toNat_setWidth, hk])
  cases p with
  | lowNibble => exact congrArg some hlow
  | fault =>
    have hle : b.toNat ≤ 15 := h.resolve_left nofun
    exact (if_neg (Nat.not_lt.mpr hle)).trans (congrArg some hlow)

theorem keyIndexOf_fault_eq_none {b : Byte} (h : 15 < b.toNat) : keyIndexOf .fault b = none :=
  if_pos h

/-- Settles O38: the check gives the key, and the skip goes by its state. -/
theorem keySkipsComplete : Obligations.KeySkipsComplete := by
  unfold Obligations.KeySkipsComplete
  intro x k s hk hpolicy
  have hkey := keyIndexOf_eq_some hk hpolicy
  have hskp := exec_skp x s
  have hsknp := exec_sknp x s
  rw [hkey, State.orRaise_some] at hskp hsknp
  refine ⟨⟨_, completes_of_exec_skipIf hskp rfl⟩, ⟨_, completes_of_exec_skipIf hsknp ?_⟩⟩
  cases s.key k <;> rfl

/-- Settles O39: the check gives no key. -/
theorem keyNumberOutOfRangeRaises : Obligations.KeyNumberOutOfRangeRaises := by
  unfold Obligations.KeyNumberOutOfRangeRaises
  intro x s hpolicy hbig
  have hnone : keyIndexOf s.cfg.keyIndex (s.getV x) = none := by rw [hpolicy, keyIndexOf_fault_eq_none hbig]
  exact ⟨raises_of_exec_orRaise (exec_skp x s) hnone, raises_of_exec_orRaise (exec_sknp x s) hnone⟩

/-! ### Timer moves -/

theorem exec_ldVxDT (x : Nibble) (s : State) : exec (.ldVxDT x) s = .next (s.setV x s.dt).advance := rfl

theorem exec_ldDTVx (x : Nibble) (s : State) : exec (.ldDTVx x) s = .next { s with dt := s.getV x }.advance := rfl

theorem exec_ldSTVx (x : Nibble) (s : State) : exec (.ldSTVx x) s = .next { s with st := s.getV x }.advance := rfl

/-- Settles O40: each writes one register or one timer and advances. -/
theorem timerMovesComplete : Obligations.TimerMovesComplete := by
  unfold Obligations.TimerMovesComplete
  intro x s
  exact ⟨⟨everyOpcodeDecodesToItsInstruction (.ldVxDT x), _, completes_of_exec_setV_advance (exec_ldVxDT x s), s.getV_setV_advance_self x _⟩,
    ⟨everyOpcodeDecodesToItsInstruction (.ldDTVx x), _, completes_of_exec_advance (exec_ldDTVx x s) rfl (s.frame_dt _), rfl⟩,
    everyOpcodeDecodesToItsInstruction (.ldSTVx x), _, completes_of_exec_advance (exec_ldSTVx x s) rfl (s.frame_st _), rfl⟩

/-! ### The wait for a key -/

theorem State.exists_selectKey {s : State} (h : ∃ k, s.key k = true) : ∃ k, s.selectKey = some k := by
  obtain ⟨k, hk⟩ := h
  refine Option.ne_none_iff_exists'.mp fun hnone => ?_
  simp [State.selectKey_eq_none.mp hnone k] at hk

/-- Under the default KeySelect the selected key is the lowest pressed one. -/
theorem State.selectKey_le {s : State} {k j : Nibble} (hpolicy : s.cfg.keySelect = .lowest) (h : s.selectKey = some k) (hj : s.key j = true) :
    k.toNat ≤ j.toNat := by
  have hlow : s.lowestKey = some k := by simpa [State.selectKey, hpolicy] using h
  exact State.lowestKey_le hlow hj

/-- A key number fits a register as it is. -/
theorem toNat_keyByte (k : Nibble) : (k.setWidth 8 : Byte).toNat = k.toNat := by
  bv_omega

/-- Settles O41: with no key pressed no key is selected; otherwise one is, it is pressed, and it is written. -/
theorem keyWaitPollsTheKeypad : Obligations.KeyWaitPollsTheKeypad := by
  unfold Obligations.KeyWaitPollsTheKeypad
  intro x s
  refine ⟨fun hno => exec_ldVxK_of_selectKey_eq_none (State.selectKey_eq_none.mpr hno), fun hkey => ?_⟩
  obtain ⟨k, hk⟩ := State.exists_selectKey hkey
  refine ⟨_, k, completes_of_exec_setV_advance (exec_ldVxK_of_selectKey_eq_some hk), State.key_of_selectKey hk, ?_, fun hpolicy j hj => ?_⟩
  · rw [State.getV_setV_advance_self, toNat_keyByte]
  · exact State.selectKey_le hpolicy hk hj

theorem hostCall_setKey_nibble (k : Nibble) (p : Bool) (s : State) : hostCall (.setKey k.toNat p) s = .next (.ok, s.setKeyState k p) := by
  have hvalid : keyNumberValid k.toNat = true := decide_eq_true (Nat.le_of_lt_succ k.isLt)
  simp [hostCall, State.setKey, hvalid]

/-- The only key pressed is the one that is selected, whatever KeySelect is. -/
theorem State.selectKey_setKeyState {s : State} (h : ∀ j, s.key j = false) (k : Nibble) : (s.setKeyState k true).selectKey = some k := by
  obtain ⟨j, hj⟩ := State.exists_selectKey (s := s.setKeyState k true) ⟨k, by simp⟩
  have hpressed := State.key_of_selectKey hj
  have hkj : k = j := by simpa [h] using hpressed
  rw [hj, hkj]

/-- Settles O42: the first step waits, the host presses the key, and the second step takes it. -/
theorem waitEndsWithTheKeyTheHostSets : Obligations.WaitEndsWithTheKeyTheHostSets := by
  unfold Obligations.WaitEndsWithTheKeyTheHostSets
  intro x k w s hl ho hw hd hkeys
  obtain ⟨-, hwaits, -⟩ := waitingMeansFx0AWithNoKey
  have hfirst : hostCall .step s = .next (.waiting, s.waitKey x) := hwaits s x w hl ho hw hd hkeys
  let u := (s.waitKey x).setKeyState k true
  have hsel : u.selectKey = some k := State.selectKey_setKeyState (s := s.waitKey x) hkeys k
  have hrun : u.fetch = .run (.ldVxK x) := State.fetch_eq_run_of_decode (s := u) hl ho hw hd
  have hsecond : step u = .next (u.setV x (k.setWidth 8)).advance := by
    rw [step_of_fetch_run hrun, exec_ldVxK_of_selectKey_eq_some hsel]
  refine ⟨(u.setV x (k.setWidth 8)).advance, ?_, ?_, rfl, rfl, ?_⟩
  · rw [hostRun_cons hfirst, hostRun_cons (hostCall_setKey_nibble k true _), hostRun_cons (hostCall_step_eq_next.mpr ⟨hsecond, rfl⟩)]
    rfl
  · rw [State.getV_setV_advance_self, toNat_keyByte]
  · have hframe : Frame [x] 0 0 [.pc, .keyWait, .keys] s u := by simp [Frame, u]
    exact hframe.trans ((u.frame_setV_advance x _).mono (.refl _) (by omega) (by decide))

end Sys2Proof.Machine
end

section
/-! PROOF. CLS and DRW (40_display.md R100 to R103), pixel by pixel. -/

namespace Sys2Proof.Machine

theorem exec_cls (s : State) : exec .cls s = .next { s with fb := 0, redraw := true }.advance := rfl

/-- Settles O13: the framebuffer it leaves is the word with no bit set. -/
theorem clearScreenCompletes : Obligations.ClearScreenCompletes := by
  unfold Obligations.ClearScreenCompletes
  intro s
  refine ⟨_, completes_of_exec_advance (exec_cls s) rfl (s.frame_display 0 true), fun x y _ _ => ?_, rfl⟩
  exact BitVec.getLsbD_zero

/-! ### The rows of the sprite -/

theorem exec_drw (x y n : Nibble) (s : State) : exec (.drw x y n) s =
    s.orRaise .outOfBounds (.drw x y n) (s.spriteRows n) fun rows =>
      let drawn := drawSprite s.fb ((s.getV x).toNat % 64) ((s.getV y).toNat % 32) rows
      ({ s with fb := drawn.1, redraw := true }.setV regF (flagByte drawn.2)).advance := rfl

theorem State.spriteRows_eq_none {s : State} {n : Nibble} (hn : n ≠ 0) (h : 0x1000 < s.i.toNat + n.toNat) : s.spriteRows n = none := by
  rw [State.spriteRows, if_neg hn]
  exact State.memRead_eq_none.mpr h

/-- A sprite of no rows, or one that lies in memory, is its n bytes from I on (R101). -/
theorem State.spriteRows_eq_some {s : State} {n : Nibble} (h : n = 0 ∨ s.i.toNat + n.toNat ≤ 0x1000) :
    s.spriteRows n = some (s.mem.readBytes s.i.toNat n.toNat) := by
  unfold State.spriteRows
  split
  · next hn => rw [hn]; rfl
  · next hn => exact State.memRead_eq_some.mpr ⟨h.resolve_left hn, rfl⟩

/-- Settles O15: the sprite has no rows to draw, so the check raises. -/
theorem drawPastMemoryRaises : Obligations.DrawPastMemoryRaises := by
  unfold Obligations.DrawPastMemoryRaises
  intro x y n s hn hout
  exact raises_of_exec_orRaise (exec_drw x y n s) (State.spriteRows_eq_none hn hout)

/-! ### The pixels of the sprite -/

/-- The set cell a pixel is under, in the words of the statement (R102). -/
theorem cellOn_spriteRows (s : State) (x y n : Nibble) (px py : Nat) :
    cellOn (s.mem.readBytes s.i.toNat n.toNat) ((px + 64 - (s.getV x).toNat % 64) % 64) ((py + 32 - (s.getV y).toNat % 32) % 32) =
      spriteCovers s x y n px py := by
  simp only [cellOn, spriteCovers, spriteBit, Memory.length_readBytes]
  by_cases hr : (py + 32 - (s.getV y).toNat % 32) % 32 < n.toNat
  · rw [Memory.getD_readBytes _ _ _ _ _ hr]
  · simp [hr]

/-- All a completed draw does: each pixel XORed with the sprite's bit there, the collision of a lit pixel under a set bit, the redraw flag. -/
theorem exec_drw_completes {x y n : Nibble} {s : State} (h : n = 0 ∨ s.i.toNat + n.toNat ≤ 0x1000) :
    ∃ fb c, exec (.drw x y n) s = .next ({ s with fb := fb, redraw := true }.setV regF (flagByte c)).advance ∧
      (∀ px py, px < 64 → py < 32 → fb.getLsbD (py * 64 + px) = (s.pixel px py ^^ spriteCovers s x y n px py)) ∧
      (c = true ↔ ∃ px py, px < 64 ∧ py < 32 ∧ s.pixel px py = true ∧ spriteCovers s x y n px py = true) := by
  have hexec := exec_drw x y n s
  rw [State.spriteRows_eq_some h, State.orRaise_some] at hexec
  have hlen : 0 + (s.mem.readBytes s.i.toNat n.toNat).length ≤ 16 := by
    have := n.isLt
    rw [Memory.length_readBytes]; omega
  obtain ⟨hpixels, hcollision⟩ := drawRows_spec ((s.getV x).toNat % 64) ((s.getV y).toNat % 32) (by omega) (by omega) _ 0 hlen (s.fb, false)
  simp only [Nat.zero_le, decide_true, Bool.true_and, true_and, Nat.sub_zero, cellOn_spriteRows, Bool.false_eq_true, false_or]
    at hpixels hcollision
  exact ⟨_, _, hexec, hpixels, hcollision⟩

/-- Settles O14: the pixels and the collision are those of `exec_drw_completes`, and VF is the collision as a byte. -/
theorem drawXorsTheSpritePixelByPixel : Obligations.DrawXorsTheSpritePixelByPixel := by
  unfold Obligations.DrawXorsTheSpritePixelByPixel
  intro x y n s h
  obtain ⟨fb, c, hexec, hpixels, hcollision⟩ := exec_drw_completes (x := x) (y := y) h
  have hframe := (s.frame_display fb true).trans_regs (State.frame_setV _ regF (flagByte c))
  have hflag := State.getV_setV_advance_self { s with fb := fb, redraw := true } regF (flagByte c)
  refine ⟨_, completes_of_exec_advance hexec rfl hframe, rfl, hpixels, fun hhit => ?_, fun hmiss => ?_⟩
  · rw [hcollision.mpr hhit] at hflag ⊢
    exact hflag
  · have hc : c = false := by
      rw [← Bool.not_eq_true, hcollision]
      rintro ⟨px, py, hx, hy, hlit, hcov⟩
      simp [hmiss px py hx hy hlit] at hcov
    rw [hc] at hflag ⊢
    exact hflag

/-! ### Drawing twice -/

/-- Framebuffers that agree on the 64 x 32 grid are equal (10_state.md R28). -/
theorem fb_ext {fb fb' : BitVec 2048} (h : ∀ px py, px < 64 → py < 32 → fb.getLsbD (py * 64 + px) = fb'.getLsbD (py * 64 + px)) : fb = fb' := by
  apply BitVec.eq_of_getLsbD_eq
  intro j hj
  have hsplit : j / 64 * 64 + j % 64 = j := Nat.div_add_mod' j 64
  rw [← hsplit]
  exact h _ _ (by omega) (by omega)

/-- The sprite covers the same pixels from two states that agree on its place, on I and on memory. -/
theorem spriteCovers_congr {s t : State} {x y : Nibble} (hx : t.getV x = s.getV x) (hy : t.getV y = s.getV y) (hi : t.i = s.i) (hm : t.mem = s.mem)
    (n : Nibble) (px py : Nat) : spriteCovers t x y n px py = spriteCovers s x y n px py := by
  simp only [spriteCovers, hx, hy, hi, hm]

/-- Settles O16: the second draw XORs with the same bits, and the lit pixels it covers are the covered ones that were off. -/
theorem drawingTwiceRestoresTheFramebuffer : Obligations.DrawingTwiceRestoresTheFramebuffer := by
  unfold Obligations.DrawingTwiceRestoresTheFramebuffer
  intro x y n s t h hdraw hx hy
  obtain ⟨t', ⟨hexec, -, -, hframe⟩, -, hpixels, -, -⟩ := drawXorsTheSpritePixelByPixel x y n s h
  obtain rfl : t' = t := by simpa [hexec] using hdraw
  have hi : t'.i = s.i := hframe.i_eq (by decide)
  have hm : t'.mem = s.mem := (footprint_of_exec hexec).mem rfl
  have hcov := spriteCovers_congr hx hy hi hm n
  obtain ⟨u, ⟨hexec', -, -, -⟩, -, hpixels', hhit, hmiss⟩ := drawXorsTheSpritePixelByPixel x y n t' (hi ▸ h)
  refine ⟨u, hexec', fb_ext fun px py hpx hpy => ?_, fun ⟨px, py, hpx, hpy, hoff, hc⟩ => ?_, fun hall => ?_⟩
  · have hpix := hpixels' px py hpx hpy
    rw [hpixels px py hpx hpy, hcov, Bool.xor_assoc, Bool.xor_self, Bool.xor_false] at hpix
    exact hpix
  · refine hhit ⟨px, py, hpx, hpy, ?_, (hcov px py).trans hc⟩
    rw [hpixels px py hpx hpy, hoff, hc]; rfl
  · refine hmiss fun px py hpx hpy hlit => ?_
    rw [hcov, ← Bool.not_eq_true]
    intro hc
    rw [hpixels px py hpx hpy, hc, hall px py hpx hpy hc] at hlit
    cases hlit

end Sys2Proof.Machine
end

section
/-! PROOF. Reset and the host operations (60_exceptions.md R230 to R237, 70_reset_and_hazards.md R270). -/

namespace Sys2Proof.Machine

/-! ### Reset -/

/-- Outside the font area the reset contents are 0 (20_memory.md R50). -/
theorem Memory.resetByte_eq_zero {a : Nat} (h : ¬ (0x050 ≤ a ∧ a ≤ 0x09F)) : Memory.resetByte a = 0 :=
  dif_neg (by unfold fontBase; omega)

/-- Settles O54, element by element. -/
theorem resetValues : Obligations.ResetValues := by
  unfold Obligations.ResetValues
  exact ⟨rfl, fun r => Vector.getElem_replicate _, rfl, rfl, fun j => Vector.getElem_replicate _, rfl, rfl, fun x y => BitVec.getLsbD_zero,
    fun k => Vector.getElem_replicate _, rfl, rfl, rfl, fun a => Memory.resetByte_eq_zero⟩

theorem State.hostReset_mem (s : State) : s.hostReset.mem = Memory.writeBytes [] fontBase s.cfg.fontTable.toList := rfl

/-- Settles O55: the font area is a block just written. -/
theorem resetPlacesTheFontTable : Obligations.ResetPlacesTheFontTable := by
  unfold Obligations.ResetPlacesTheFontTable
  intro s d k
  have hlen : 5 * d.val + k.val < s.cfg.fontTable.toList.length := by rw [Vector.length_toList]; omega
  have hread := Memory.read_writeBytes_add [] fontBase hlen
  rw [List.getD_eq_getElem _ _ hlen, Vector.getElem_toList] at hread
  rw [Nat.add_assoc]
  exact hread

/-- reset() reads nothing of the state before it but the parameters and the count of draws. -/
theorem State.hostReset_congr {s s' : State} (hcfg : s'.cfg = s.cfg) (hdraws : s'.draws = s.draws) : s'.hostReset = s.hostReset := by
  simp only [State.hostReset, hcfg, hdraws]

/-- Settles O56: what reset() leaves is the reset state with its own font table, parameters and draw count. -/
theorem hostResetLeavesNothingFromBefore : Obligations.HostResetLeavesNothingFromBefore := by
  unfold Obligations.HostResetLeavesNothingFromBefore
  intro s
  obtain ⟨hpc, hv, hi, hsp, hstack, hdt, hst, hpixel, hkey, hredraw, hkw, hlatch, hmem⟩ := resetValues
  refine ⟨s.hostReset, rfl, hpc, hv, hi, hsp, hstack, hdt, hst, hpixel, hkey, hredraw, hkw, hlatch, rfl, rfl, fun a ha => ?_, fun s' hcfg hdraws => ?_⟩
  · have hout : ¬ (fontBase ≤ a ∧ a < fontBase + s.cfg.fontTable.toList.length) := by
      rw [Vector.length_toList, fontBase]; omega
    rw [State.hostReset_mem, Memory.read_writeBytes_outside _ _ _ _ hout]
    exact hmem a ha
  · rw [← State.hostReset_congr hcfg hdraws]; rfl

/-! ### Ticks -/

theorem toNat_tickDown (b : Byte) : (tickDown b).toNat = b.toNat - 1 := by
  unfold tickDown
  split <;> bv_omega

theorem State.frame_tick (s : State) : Frame [] 0 0 [.dt, .st] s s.tick := by
  simp [Frame]

theorem hostCall_tick (s : State) : hostCall .tick s = .next (.ok, s.tick) := rfl

/-- Settles O57, by induction on the number of ticks. -/
theorem ticksCountDownToZero : Obligations.TicksCountDownToZero := by
  unfold Obligations.TicksCountDownToZero
  intro n
  induction n with
  | zero => exact fun s => ⟨s, rfl, rfl, rfl, .refl ..⟩
  | succ n ih =>
    intro s
    obtain ⟨t, hrun, hdt, hst, hframe⟩ := ih s.tick
    refine ⟨t, (hostRun_cons (hostCall_tick s)).trans hrun, ?_, ?_, s.frame_tick.trans hframe⟩
    · rw [hdt, State.tick_dt, toNat_tickDown]; omega
    · rw [hst, State.tick_st, toNat_tickDown]; omega

/-! ### Keys, redraw and load -/

theorem State.frame_setKeyState (s : State) (k : Nibble) (p : Bool) : Frame [] 0 0 [.keys] s (s.setKeyState k p) := by
  simp [Frame]

/-- Settles O58: a number up to 15 is a nibble, and the write of that key leaves the others. -/
theorem setKeyWritesOneKey : Obligations.SetKeyWritesOneKey := by
  unfold Obligations.SetKeyWritesOneKey
  intro k p s
  refine ⟨fun hk => ?_, fun hk => ?_⟩
  · have hnibble : (BitVec.ofNat 4 k).toNat = k := Nat.mod_eq_of_lt (Nat.lt_succ_of_le hk)
    refine ⟨s.setKeyState (BitVec.ofNat 4 k) p, ?_, s.frame_setKeyState _ p, fun j => ?_⟩
    · have hcall := hostCall_setKey_nibble (BitVec.ofNat 4 k) p s
      rwa [hnibble] at hcall
    · have hsame : BitVec.ofNat 4 k = j ↔ j.toNat = k := by rw [← BitVec.toNat_inj, hnibble, eq_comm]
      simp only [State.key_setKeyState, hsame]
  · have hinvalid : keyNumberValid k = false := decide_eq_false (Nat.not_le.mpr hk)
    simp [hostCall, State.setKey, hinvalid]

theorem State.frame_consumeRedraw (s : State) : Frame [] 0 0 [.redraw] s s.consumeRedraw := by
  simp [Frame]

/-- Settles O59: one element written, and two reads that write none. -/
theorem redrawIsConsumedAndRead : Obligations.RedrawIsConsumedAndRead := by
  unfold Obligations.RedrawIsConsumedAndRead
  intro s
  exact ⟨⟨s.consumeRedraw, rfl, rfl, s.frame_consumeRedraw⟩, ⟨s.fb, rfl, fun _ _ _ _ => rfl⟩, rfl⟩

theorem State.frame_copyProgram (s : State) (bytes : List Byte) : Frame [] 0x200 bytes.length [] s (s.copyProgram bytes) := by
  refine ⟨fun _ _ => rfl, fun a => Memory.read_writeBytes_outside s.mem programBase a bytes, ?_⟩
  simp

/-- Settles O60: a program that fits is a block written at 0x200. -/
theorem loadCopiesTheProgram : Obligations.LoadCopiesTheProgram := by
  unfold Obligations.LoadCopiesTheProgram
  intro bytes s
  refine ⟨fun hfits => ⟨s.copyProgram bytes, ?_, s.frame_copyProgram bytes, fun j hj => ?_⟩, fun hbig => ?_⟩
  · simp [hostCall, State.load, programFits_iff.mpr hfits]
  · rw [State.copyProgram_mem, ← programBase, Memory.read_writeBytes_add _ _ hj, List.getD_eq_getElem _ _ hj]
  · have hno : ¬ programFits bytes = true := fun h => Nat.not_le.mpr hbig (programFits_iff.mp h)
    simp [hostCall, State.load, hno]

end Sys2Proof.Machine
end
